-- ==== Sys2Proof/Word.lean ====
section
/-! DEFINITION. The word types of CORE's request and response fields (`10_state.md` rules R19, R20). -/

namespace Sys2Proof

/-- The command word `CMD` (R50). -/
abbrev Word32 := BitVec 32

/-- A data field of the request or response: `PAYLOAD_*`, `RAW_*` (R19, R20). -/
abbrev Word64 := BitVec 64

/-- A payload byte (R15). -/
abbrev Byte := BitVec 8

/-- A 64-bit field read as an IEEE 754 binary64 bit pattern: `PHYS_*`, `FACTOR`, `OFFSET`, `MIN`, `MAX` (R80). -/
abbrev F64 := BitVec 64

end Sys2Proof
end

