-- ==== Sys2Proof/Config.lean ====
section
/-! DEFINITION. The implementation parameters of `00_scope.md` rule R7, and the free values: constants with no body
for what the spec leaves unspecified, so that no proof can see a value for them. -/

namespace Sys2Proof

/-- `PAYLOAD_MAX_BYTES` (R7): the largest payload capacity. -/
@[simp] abbrev Config.payloadMaxBytes : Nat := 8

/-- `LENGTH_MIN` (R7). -/
@[simp] abbrev Config.lengthMin : Nat := 1

/-- `LENGTH_MAX` (R7). -/
@[simp] abbrev Config.lengthMax : Nat := 64

/-- `START_MAX` (R7). -/
@[simp] abbrev Config.startMax : Nat := 63

/-- FREE VALUE (assumption 2; R20, U1): what `CLAMPED` carries in the `n`-th response when that response does not
produce it. -/
opaque Config.unproducedClamped : Nat → BitVec 1

/-- FREE VALUE (assumption 2; R20, U1): what `RAW_OUT` carries in the `n`-th response when that response does not
produce it. -/
opaque Config.unproducedRawOut : Nat → Word64

/-- FREE VALUE (assumption 2; R20, U1): what `PHYS_OUT` carries in the `n`-th response when that response does not
produce it. -/
opaque Config.unproducedPhysOut : Nat → F64

/-- FREE VALUE (assumption 5): the sign and the low 51 fraction bits of the NaN that a binary64 primitive returns for
the operands `a`, `b`; the spec gives no NaN's bit pattern and no operation of CORE meets one. -/
opaque Config.nanBits : F64 → F64 → Word64

end Sys2Proof
end

