-- ==== Sys2Proof/Syntax.lean ====
section
/-! DEFINITION. The commands of CORE as data: one constructor of `Instr` per row of `opcode_table.json`, each with every
field of the command word (`30_encoding.md` rules R50, R51, R54), and the assembler line of rule R59. -/

namespace Sys2Proof

/-- The two-variant order tag (R16, R53); the `ORDER` bit is met only in the decoder and encoder. -/
inductive ByteOrder where
  | intel
  | motorola
  deriving DecidableEq, Repr

/-- The fields of a command word beside `OP`, as rule R51 reads them. A command carries all of them, the ones its
operation ignores included (R54), so that no bit of the word is lost. -/
structure CmdFields where
  /-- `ORDER`, bit 2. -/
  order : ByteOrder
  /-- `SIGNED`, bit 3: the source's `is_signed`. -/
  isSigned : Bool
  /-- `CAP`, bits 7:4: the payload capacity in bytes. -/
  cap : Nat
  /-- `START_BIT`, bits 13:8. -/
  startBit : Nat
  /-- `LENGTH`, bits 22:16, not biased. -/
  length : Nat
  deriving DecidableEq, Repr

/-- The four operations (R2, R52), one constructor per row of the opcode table. -/
inductive Instr where
  /-- `EXTRACT` (R70): read a signal's bits out of a payload. -/
  | extract (c : CmdFields)
  /-- `INSERT` (R71): write a signal's bits into a payload. -/
  | insert (c : CmdFields)
  /-- `TOPHYS` (R88): raw value to clamped physical value. -/
  | tophys (c : CmdFields)
  /-- `TORAW` (R89): physical value to raw value. -/
  | toraw (c : CmdFields)
  deriving DecidableEq, Repr

/-- The command's fields, whichever operation it names. -/
def Instr.fields : Instr → CmdFields
  | .extract c => c
  | .insert c => c
  | .tophys c => c
  | .toraw c => c

/-- A line of the assembler syntax (R59): it names only the fields its operation reads. -/
inductive AsmLine where
  /-- `EXTRACT.<o> cap=, start=, len=` -/
  | extract (order : ByteOrder) (cap start len : Nat)
  /-- `INSERT.<o> cap=, start=, len=` -/
  | insert (order : ByteOrder) (cap start len : Nat)
  /-- `TOPHYS.<g> len=` -/
  | tophys (isSigned : Bool) (len : Nat)
  /-- `TORAW.<g> len=` -/
  | toraw (isSigned : Bool) (len : Nat)
  deriving DecidableEq, Repr

end Sys2Proof
end

