-- ==== Sys2Proof/WellFormed.lean ====
section
/-! DEFINITION. Which commands and assembler lines a command word can spell (`30_encoding.md` rules R50, R54, R55, R59). -/

namespace Sys2Proof

/-- Every field fits its slice of the command word (R50): `CAP` 4 bits, `START_BIT` 6, `LENGTH` 7. -/
def CmdFields.fits (c : CmdFields) : Bool :=
  decide (c.cap < 16) && decide (c.startBit ≤ Config.startMax) && decide (c.length < 128)

/-- The capacity is one a payload can have (R15, R54): 0 to 8 bytes. -/
def CmdFields.capLegal (c : CmdFields) : Bool :=
  decide (c.cap ≤ Config.payloadMaxBytes)

/-- A command of CORE: the fields fit, and the operations that read the capacity have a legal one (R54, R55). A `LENGTH`
of 0 or above 64 is well formed: it is faulted when it runs (R54). -/
def Instr.wf : Instr → Bool
  | .extract c => c.fits && c.capLegal
  | .insert c => c.fits && c.capLegal
  | .tophys c => c.fits
  | .toraw c => c.fits

/-- The ranges rule R59 writes into the syntax: `cap=<0..8>`, `start=<0..63>`, `len=<0..127>`. -/
def AsmLine.wf : AsmLine → Bool
  | .extract _ cap start len =>
    decide (cap ≤ Config.payloadMaxBytes) && decide (start ≤ Config.startMax) && decide (len < 128)
  | .insert _ cap start len =>
    decide (cap ≤ Config.payloadMaxBytes) && decide (start ≤ Config.startMax) && decide (len < 128)
  | .tophys _ len => decide (len < 128)
  | .toraw _ len => decide (len < 128)

end Sys2Proof
end

