-- ==== Sys2Proof/Decode.lean ====
section
/-! DEFINITION. The decoder of the command word, total over the 2^32 words (`30_encoding.md` rules R50 to R55), the
encoder, and the assembler of rule R59. -/

namespace Sys2Proof

/-- Why a word spells no command (R55). Both are rule R108's `invalid_command`. -/
inductive DecodeError where
  /-- A bit of 15:14 or 31:23 is set. -/
  | reservedBits
  /-- `OP` is EXTRACT or INSERT and `CAP` is 9 to 15. -/
  | capAboveEight
  deriving DecidableEq, Repr

/-- What the decoder answers: a command or a named rejection. -/
inductive Decoded where
  | command (i : Instr)
  | rejected (e : DecodeError)
  deriving DecidableEq, Repr

/-- The slice `w[lo+width-1:lo]` as an unsigned integer (R8, R51). -/
def slice (w : Word32) (lo width : Nat) : Nat :=
  w.toNat / 2 ^ lo % 2 ^ width

/-- `ORDER` 0 is Intel, 1 is Motorola (R53). -/
def orderOfBit (b : Nat) : ByteOrder :=
  if b = 0 then .intel else .motorola

/-- The fields of a command word (R51). -/
def fieldsOf (w : Word32) : CmdFields :=
  { order := orderOfBit (slice w 2 1)
    isSigned := decide (slice w 3 1 = 1)
    cap := slice w 4 4
    startBit := slice w 8 6
    length := slice w 16 7 }

/-- Both reserved slices are zero (R50, R55). -/
def reservedClear (w : Word32) : Bool :=
  decide (slice w 14 2 = 0) && decide (slice w 23 9 = 0)

/-- The operation that `OP` selects (R52). -/
def ofOp (op : Nat) (c : CmdFields) : Instr :=
  match op with
  | 0 => .extract c
  | 1 => .insert c
  | 2 => .tophys c
  | _ => .toraw c

/-- The decoder: reserved bits first, then the capacity of the operations that read one (R52, R54, R55). -/
def decode (w : Word32) : Decoded :=
  if reservedClear w then
    match ofOp (slice w 0 2) (fieldsOf w) with
    | .extract c => if c.capLegal then .command (.extract c) else .rejected .capAboveEight
    | .insert c => if c.capLegal then .command (.insert c) else .rejected .capAboveEight
    | .tophys c => .command (.tophys c)
    | .toraw c => .command (.toraw c)
  else .rejected .reservedBits

/-- The instruction the decoder reads, if it reads one. -/
def Decoded.instr? : Decoded → Option Instr
  | .command i => some i
  | .rejected _ => none

/-- `OP` of a command (R52). -/
def Instr.op : Instr → Nat
  | .extract _ => 0
  | .insert _ => 1
  | .tophys _ => 2
  | .toraw _ => 3

/-- `ORDER` of an order tag (R53). -/
def bitOfOrder : ByteOrder → Nat
  | .intel => 0
  | .motorola => 1

/-- The command word of a command, written from the field positions of rule R50; reserved bits are zero. -/
def encode (i : Instr) : Word32 :=
  let c := i.fields
  BitVec.ofNat 32
    (i.op + bitOfOrder c.order * 2 ^ 2 + c.isSigned.toNat * 2 ^ 3 + c.cap * 2 ^ 4 + c.startBit * 2 ^ 8 + c.length * 2 ^ 16)

/-- The command an assembler line spells: every field it does not name is 0 (R59). -/
def AsmLine.instr : AsmLine → Instr
  | .extract o cap start len => .extract ⟨o, false, cap, start, len⟩
  | .insert o cap start len => .insert ⟨o, false, cap, start, len⟩
  | .tophys g len => .tophys ⟨.intel, g, 0, 0, len⟩
  | .toraw g len => .toraw ⟨.intel, g, 0, 0, len⟩

/-- The word an assembler line assembles to (R59). -/
def AsmLine.assemble (l : AsmLine) : Word32 :=
  encode l.instr

/-- `<o>` and `<g>` of rule R59. -/
def orderLetter : ByteOrder → String
  | .intel => "I"
  | .motorola => "M"

/-- `<g>` of rule R59. -/
def signLetter (g : Bool) : String :=
  if g then "S" else "U"

/-- The text of an assembler line (R59). -/
def AsmLine.text : AsmLine → String
  | .extract o cap start len =>
    "EXTRACT." ++ orderLetter o ++ " cap=" ++ toString cap ++ ", start=" ++ toString start ++ ", len=" ++ toString len
  | .insert o cap start len =>
    "INSERT." ++ orderLetter o ++ " cap=" ++ toString cap ++ ", start=" ++ toString start ++ ", len=" ++ toString len
  | .tophys g len => "TOPHYS." ++ signLetter g ++ " len=" ++ toString len
  | .toraw g len => "TORAW." ++ signLetter g ++ " len=" ++ toString len

/-- The word a table row's bits stand for: a command is ONE 32-bit word delivered with its request (R45, R50), so bit k
of the table is bit k of `CMD`; `none` where the bits do not fit the word. -/
def tableWord (nbits w : Nat) : Option Word32 :=
  if w % 2 ^ nbits < 2 ^ 32 then some (BitVec.ofNat 32 (w % 2 ^ nbits)) else none

/-- The instruction the decoder reads from an opcode-table row's word. -/
def decodeTableWord (nbits w : Nat) : Option Instr :=
  match tableWord nbits w with
  | some v => (decode v).instr?
  | none => none

end Sys2Proof
end

