-- ==== Sys2Proof/Machine/State.lean ====
section
/-! DEFINITION. The request and response records, the host's inputs, and the state of CORE with what the host has received
(`10_state.md` rules R10, R13, R19 to R21, R25; `70_reset_and_hazards.md` rules R120, R131). -/

namespace Sys2Proof.Machine

/-- The spec's two faults (R100). Both are IN-BAND: a meaning that raises one answers a next state whose newest response
carries the fault's `STATUS` code (R103), never `Host.Outcome.fault`; so no step of CORE ends in a fault outcome. -/
inductive Fault where
  /-- Raised by EXTRACT and INSERT when the geometry does not fit the payload and by all four operations when `LENGTH` is
  outside 1..=64 (R101). Safe: it is the spec's own response. -/
  | geometryOutOfRange
  /-- Raised by TORAW when `FACTOR` is +0 or -0 (R102). Safe: it is the spec's own response. -/
  | scaleDegenerate
  deriving DecidableEq, Repr

/-- The requests to which the spec gives no meaning (R108), and the outcomes that no step of CORE reaches. -/
inductive Refusal where
  /-- The instruction has no meaning yet in this model. Raised by a refused arm of `exec`; there is none. Safe. -/
  | notModelled (mnemonic : String)
  /-- `invalid_command` (R55, R108): raised by the step when `CMD` spells no command. Safe: no claim is made. -/
  | invalidCommand (why : DecodeError)
  /-- `non_finite_operand` (R108, R123): raised by TOPHYS and TORAW. Safe: no claim is made. -/
  | nonFiniteOperand
  /-- `min_above_max` (R108, R123): raised by TOPHYS and TORAW. Safe: no claim is made. -/
  | minAboveMax
  /-- An operation was asked for outside a transaction (R13: an operation is always part of one). Raised by every meaning
  when no transaction is in progress; the step never does that. Safe. -/
  | noTransaction
  /-- TORAW's quotient is a NaN. The spec derives that this never happens in the documented domain (R89), and the
  obligation `TorawQuotientIsNeverNan` says it of the model. Raised by TORAW. Safe. -/
  | nanQuotient
  deriving DecidableEq, Repr

/-- A request: every input of one operation (R19). -/
structure Request where
  /-- `CMD`, 32 bits. -/
  cmd : Word32
  /-- `PAYLOAD_IN`, 64 bits. -/
  payloadIn : Word64
  /-- `RAW_IN`, 64 bits. -/
  rawIn : Word64
  /-- `PHYS_IN`, binary64. -/
  physIn : F64
  /-- `FACTOR`, binary64. -/
  factor : F64
  /-- `OFFSET`, binary64. -/
  offset : F64
  /-- `MIN`, binary64. -/
  minValue : F64
  /-- `MAX`, binary64. -/
  maxValue : F64
  deriving DecidableEq, Repr

/-- What a response carries beside `PAYLOAD_OUT`: one constructor per row of rule R20's outcome type, with exactly the
fields that outcome produces, as rule R20, D11 and U1 ask. -/
inductive Result where
  /-- A successful EXTRACT: `RAW_OUT`. -/
  | extractOk (rawOut : Word64)
  /-- A successful INSERT: its result is `PAYLOAD_OUT`. -/
  | insertOk
  /-- A successful TOPHYS: `PHYS_OUT` and `CLAMPED`. -/
  | tophysOk (physOut : F64) (clamped : Bool)
  /-- A successful TORAW: `RAW_OUT` and `CLAMPED`. -/
  | torawOk (rawOut : Word64) (clamped : Bool)
  /-- A fault response: only `STATUS` (R103). -/
  | fault (f : Fault)
  deriving DecidableEq, Repr

/-- A response: every output of one operation (R20). `PAYLOAD_OUT` is defined in every response (R22). -/
structure Response where
  /-- `PAYLOAD_OUT`, 64 bits. -/
  payloadOut : Word64
  /-- The other fields this response produces. -/
  result : Result
  deriving DecidableEq, Repr

/-- The five response fields of rule R20, at their widths, as a host reads them off the interface. -/
structure ResponseFields where
  /-- `STATUS`, 2 bits. -/
  status : BitVec 2
  /-- `CLAMPED`, 1 bit. -/
  clamped : BitVec 1
  /-- `PAYLOAD_OUT`, 64 bits. -/
  payloadOut : Word64
  /-- `RAW_OUT`, 64 bits. -/
  rawOut : Word64
  /-- `PHYS_OUT`, binary64. -/
  physOut : F64
  deriving DecidableEq, Repr

/-- What the outside does to CORE, one entry at a time (R13, R120, R131). -/
inductive HostEvent where
  /-- The host issues a request; CORE takes it when no transaction is in progress (R13). -/
  | request (r : Request)
  /-- Reset is applied (R120). -/
  | reset
  /-- The host issues nothing; it lets CORE finish and idle. -/
  | wait
  deriving DecidableEq, Repr

/-- CORE's state is `transaction` alone: `none` when it is idle, else the request it has taken and not yet answered
(R10, R13, R120). `input` and `responses` are the host's side of the interface (R131): what the outside will do, oldest
first, and every response the host has received, oldest first; no operation reads them. -/
structure State where
  /-- The transaction in progress, if any (R13): CORE's own copy of the request (R131). -/
  transaction : Option Request
  /-- The host's inputs still to come, in issue order (R13, R42). -/
  input : List HostEvent
  /-- The responses the host has received, in order (R131). -/
  responses : List Response
  deriving DecidableEq, Repr

/-- Right after reset CORE is idle (R25, R120); nothing has been issued and nothing answered. -/
def State.reset : State :=
  { transaction := none
    input := []
    responses := [] }

/-- A request with every field zero: the operand fields that `State.withFetchWord` supplies where no request stands. -/
def Request.zero : Request :=
  { cmd := 0
    payloadIn := 0
    rawIn := 0
    physIn := 0
    factor := 0
    offset := 0
    minValue := 0
    maxValue := 0 }

end Sys2Proof.Machine
end

