-- ==== Sys2Proof/Machine/Float.lean ====
section
/-! DEFINITION. The binary64 primitives of `41_physical_converter.md` rules R80 to R83: format, correctly rounded
arithmetic, comparison, and the conversions between integers and binary64. Every finite binary64 value is a whole
multiple of 2^-1074; the arithmetic is exact on those multiples and rounds once, at the end. -/

namespace Sys2Proof.Machine

/-- `2^k`, in two factors whose exponents stay small for every exponent of the format, so that a state is evaluated by
plain reduction too. -/
def pow2 (k : Nat) : Nat :=
  (2 ^ (k / 16)) ^ 16 * 2 ^ (k % 16)

/-- What a binary64 pattern stands for (R80). `finite neg mag` is the number `±mag * 2^-1074`. -/
inductive FloatClass where
  | nan
  | infinite (neg : Bool)
  | finite (neg : Bool) (mag : Nat)
  deriving DecidableEq, Repr

/-- Bit 63 (R80). -/
def floatSign (x : F64) : Bool :=
  x.getLsbD 63

/-- Bits 62:52, the biased exponent (R80). -/
def floatExponent (x : F64) : Nat :=
  x.toNat / 2 ^ 52 % 2 ^ 11

/-- Bits 51:0, the fraction (R80). -/
def floatFraction (x : F64) : Nat :=
  x.toNat % 2 ^ 52

/-- The magnitude of a finite pattern in units of 2^-1074 (R80): the fraction itself for a zero or subnormal, else the
53-bit significand scaled by its exponent. -/
def floatMag (exponent fraction : Nat) : Nat :=
  if exponent = 0 then fraction else (2 ^ 52 + fraction) * pow2 (exponent - 1)

/-- The format of rule R80. -/
def classify (x : F64) : FloatClass :=
  if floatExponent x = 2047 then
    if floatFraction x = 0 then .infinite (floatSign x) else .nan
  else .finite (floatSign x) (floatMag (floatExponent x) (floatFraction x))

/-- `is_finite(x)`: the exponent field is not 2047 (R80). -/
def isFinite (x : F64) : Bool :=
  decide (floatExponent x ≠ 2047)

/-- The exponent and fraction fields of an infinity, as a number. -/
def infinityBits : Nat :=
  2047 * 2 ^ 52

/-- A pattern from its sign and its exponent and fraction fields (R80). -/
def packFloat (neg : Bool) (bits : Nat) : F64 :=
  BitVec.ofNat 64 (neg.toNat * 2 ^ 63 + bits)

/-- `num / den` to the nearest integer, ties to the even one (R81). -/
def roundHalfEven (num den : Nat) : Nat :=
  let q := num / den
  let r := num % den
  if 2 * r < den then q
  else if den < 2 * r then q + 1
  else q + q % 2

/-- How many bits of `q` can be dropped in whole 128-bit pieces, at most `fuel` of them, with something left. -/
def limbBits (fuel q : Nat) : Nat :=
  match fuel with
  | 0 => 0
  | f + 1 => if q < 2 ^ 128 then 0 else 128 + limbBits f (q / 2 ^ 128)

/-- The position of the highest bit of `q`: `Nat.log2 q` (`floorLog2_eq`), found in pieces so that plain reduction
evaluates it for every number the format meets. -/
def floorLog2 (q : Nat) : Nat :=
  limbBits 32 q + Nat.log2 (q / pow2 (limbBits 32 q))

/-- By how many places a significand of the integer `q` is above 53 bits. -/
def excessBits (q : Nat) : Nat :=
  if q < 2 ^ 53 then 0 else floorLog2 q - 52

/-- The exponent and fraction fields of the binary64 number nearest to `num / den` units of 2^-1074, ties to even
(R81). With `k` places dropped the fields read `k * 2^52 + significand`, for subnormals too (gradual underflow), and a
significand that rounds up to 2^53 carries into the exponent; from 2047 * 2^52 on the result is the infinity. -/
def roundMag (num den : Nat) : Nat :=
  let k := excessBits (num / den)
  Nat.min (k * 2 ^ 52 + roundHalfEven num (den * pow2 k)) infinityBits

/-- The NaN of an operation on `a`, `b`: quiet, with free sign and payload (assumption 5). -/
def nanOf (a b : F64) : F64 :=
  Config.nanBits a b ||| BitVec.ofNat 64 (2047 * 2 ^ 52 + 2 ^ 51)

/-- A signed multiple of 2^-1074. -/
def signedMag (neg : Bool) (mag : Nat) : Int :=
  if neg then -(mag : Int) else mag

/-- One unit, 1.0, in multiples of 2^-1074. -/
def oneMag : Nat :=
  pow2 1074

/-- `fmul` (R81): a product's sign is the exclusive or of the signs, a zero's and an infinity's included. -/
def fmul (a b : F64) : F64 :=
  match classify a, classify b with
  | .finite s m, .finite t k => packFloat (s ^^ t) (roundMag (m * k) oneMag)
  | .infinite s, .infinite t => packFloat (s ^^ t) infinityBits
  | .infinite s, .finite t k => if k = 0 then nanOf a b else packFloat (s ^^ t) infinityBits
  | .finite s m, .infinite t => if m = 0 then nanOf a b else packFloat (s ^^ t) infinityBits
  | .nan, _ => nanOf a b
  | _, .nan => nanOf a b

/-- The sum of two finite values (R81): an exact zero is negative only when both operands are. -/
def addFinite (s : Bool) (m : Nat) (t : Bool) (k : Nat) : F64 :=
  let z := signedMag s m + signedMag t k
  if z = 0 then packFloat (s && t) 0 else packFloat (decide (z < 0)) (roundMag z.natAbs 1)

/-- `fadd` (R81). -/
def fadd (a b : F64) : F64 :=
  match classify a, classify b with
  | .finite s m, .finite t k => addFinite s m t k
  | .infinite s, .infinite t => if s = t then packFloat s infinityBits else nanOf a b
  | .infinite s, .finite _ _ => packFloat s infinityBits
  | .finite _ _, .infinite t => packFloat t infinityBits
  | .nan, _ => nanOf a b
  | _, .nan => nanOf a b

/-- The pattern with the other sign. -/
def fneg (x : F64) : F64 :=
  x ^^^ BitVec.ofNat 64 (2 ^ 63)

/-- `fsub(a, b)` is `a + (-b)` (R81). -/
def fsub (a b : F64) : F64 :=
  fadd a (fneg b)

/-- `fdiv` (R81). Rule R89 never divides by zero and never an infinity by an infinity; those cases follow the format's
own arithmetic. -/
def fdiv (a b : F64) : F64 :=
  match classify a, classify b with
  | .finite s m, .finite t k =>
    if k = 0 then if m = 0 then nanOf a b else packFloat (s ^^ t) infinityBits
    else packFloat (s ^^ t) (roundMag (m * oneMag) k)
  | .infinite s, .finite t _ => packFloat (s ^^ t) infinityBits
  | .finite s _, .infinite t => packFloat (s ^^ t) 0
  | .infinite _, .infinite _ => nanOf a b
  | .nan, _ => nanOf a b
  | _, .nan => nanOf a b

/-- `flt(a, b)`: `a < b` on real values, an infinity beyond every finite value, false on a NaN (R82). -/
def flt (a b : F64) : Bool :=
  match classify a, classify b with
  | .finite s m, .finite t k => decide (signedMag s m < signedMag t k)
  | .infinite s, .infinite t => s && !t
  | .infinite s, .finite _ _ => s
  | .finite _ _, .infinite t => !t
  | .nan, _ => false
  | _, .nan => false

/-- `fgt(a, b)`: `a > b` (R82). -/
def fgt (a b : F64) : Bool :=
  flt b a

/-- `feq(a, b)`: `a = b` on real values, so +0 equals -0; false on a NaN (R82). -/
def feq (a b : F64) : Bool :=
  match classify a, classify b with
  | .finite s m, .finite t k => decide (signedMag s m = signedMag t k)
  | .infinite s, .infinite t => decide (s = t)
  | .infinite _, .finite _ _ => false
  | .finite _ _, .infinite _ => false
  | .nan, _ => false
  | _, .nan => false

/-- +0. -/
def positiveZero : F64 :=
  0

/-- `int_to_f64(k)`: the nearest binary64 value, ties to even (R83). -/
def intToF64 (k : Int) : F64 :=
  packFloat (decide (k < 0)) (roundMag (k.natAbs * oneMag) 1)

/-- `trunc_to_int(x)` for a finite x: the fraction is dropped, toward zero, exact and unbounded (R83). -/
def truncToInt (x : F64) : Option Int :=
  match classify x with
  | .finite s m => some (signedMag s (m / oneMag))
  | .infinite _ => none
  | .nan => none

end Sys2Proof.Machine
end

