-- ==== Sys2Proof/Machine/Operands.lean ====
section
/-! DEFINITION. Operand forms: the payload and its bit accessors (`20_memory.md` rules R30 to R32), the bit addressing rule
and the bounds check (R33, R35), and the numeric value and range of a raw value (`41_physical_converter.md` R84, R89). -/

namespace Sys2Proof.Machine

/-- A payload (R15) as the request carries it (R19): the capacity in bytes and the packed bytes. Bytes at index `cap` and
above are not part of the payload. -/
structure Payload where
  cap : Nat
  field : Word64
  deriving DecidableEq, Repr

/-- `P.byte[k] = PAYLOAD_IN[8k+7:8k]` (R19); `MemRead(k, 1)` of rule R8. -/
def payloadByte (p : Payload) (k : Nat) : Byte :=
  p.field.extractLsb' (8 * k) 8

/-- `MemWrite(k, 1, v)` of rule R8: byte `k` becomes `v`, every other byte stays. -/
def setPayloadByte (p : Payload) (k : Nat) (v : Byte) : Payload :=
  { p with field := (p.field &&& ~~~(BitVec.ofNat 64 255 <<< (8 * k))) ||| (v.setWidth 64 <<< (8 * k)) }

/-- `w` with bit `d` set to `v` and every other bit unchanged. -/
def writeBit {n : Nat} (w : BitVec n) (d : Nat) (v : Bool) : BitVec n :=
  if v then w ||| BitVec.twoPow n d else w &&& ~~~(BitVec.twoPow n d)

/-- `PBit(P, b) = P.byte[b div 8][b mod 8]` (R31). -/
def pBit (p : Payload) (b : Nat) : Bool :=
  (payloadByte p (b / 8)).getLsbD (b % 8)

/-- `PSetBit(P, b, v)` (R31). -/
def pSetBit (p : Payload) (b : Nat) (v : Bool) : Payload :=
  setPayloadByte p (b / 8) (writeBit (payloadByte p (b / 8)) (b % 8) v)

/-- `src_index(order, s, i)`, on mathematical integers (R33). -/
def srcIndex (order : ByteOrder) (s i : Nat) : Int :=
  match order with
  | .intel => (s : Int) + i
  | .motorola => (s : Int) - i

/-- `value_bit(order, n, i)` (R33). -/
def valueBit (order : ByteOrder) (n i : Nat) : Nat :=
  match order with
  | .intel => i
  | .motorola => n - 1 - i

/-- `touched(order, s, n)` (R35). -/
def touched (order : ByteOrder) (s n : Nat) : List Int :=
  (List.range n).map (srcIndex order s)

/-- `1 <= n and n <= 64` (R35, R87). -/
def lengthOk (n : Nat) : Bool :=
  decide (Config.lengthMin ≤ n) && decide (n ≤ Config.lengthMax)

/-- `geometry_ok(P.cap, order, s, n)` (R35): every touched index lies in `0 .. P.cap*8`. -/
def geometryOk (cap : Nat) (order : ByteOrder) (s n : Nat) : Bool :=
  lengthOk n && (touched order s n).all fun b => decide (0 ≤ b) && decide (b < (cap * 8 : Nat))

/-- EXTRACT's loop (R70), one signal bit an iteration. -/
def extractBits (p : Payload) (order : ByteOrder) (s n : Nat) : Word64 :=
  (List.range n).foldl (fun r i => writeBit r (valueBit order n i) (pBit p (srcIndex order s i).toNat)) 0

/-- INSERT's loop (R71), one signal bit an iteration. -/
def insertBits (p : Payload) (order : ByteOrder) (s n : Nat) (v : Word64) : Payload :=
  (List.range n).foldl (fun q i => pSetBit q (srcIndex order s i).toNat (v.getLsbD (valueBit order n i))) p

/-- `r[n-1:0]` as an integer (R84): bits at `n` and above are discarded. -/
def lowBits (r : Word64) (n : Nat) : Nat :=
  r.toNat % 2 ^ n

/-- `numeric(r, n, is_signed)` (R84), an exact integer. -/
def numeric (r : Word64) (n : Nat) (isSigned : Bool) : Int :=
  if isSigned && (lowBits r n).testBit (n - 1) then (lowBits r n : Int) - 2 ^ n else lowBits r n

/-- `lo`, the least integer of the field (R89). -/
def fieldLow (n : Nat) (isSigned : Bool) : Int :=
  if isSigned then -(2 ^ (n - 1)) else 0

/-- `hi`, the greatest integer of the field (R89). -/
def fieldHigh (n : Nat) (isSigned : Bool) : Int :=
  if isSigned then 2 ^ (n - 1) - 1 else 2 ^ n - 1

/-- `zext_64(k mod 2^n)` (R89): the two's-complement encoding of `k` in an `n`-bit field. -/
def encodeField (k : Int) (n : Nat) : Word64 :=
  BitVec.ofNat 64 (k % 2 ^ n).toNat

end Sys2Proof.Machine
end

