-- ==== Sys2Proof/Machine/Flags.lean ====
section
/-! DEFINITION. The two status outputs, `STATUS` and `CLAMPED` (`10_state.md` rule R21): the status codes, the two stages
of clamping that set `CLAMPED` (`41_physical_converter.md` rules R86, R89), and the response fields as the host reads them
(R20). -/

namespace Sys2Proof.Machine

/-- The `STATUS` code of a fault (R57, R100). -/
def faultCode : Fault → BitVec 2
  | .geometryOutOfRange => 1
  | .scaleDegenerate => 2

/-- `STATUS` of an outcome (R57, R100): 0 is OK. -/
def resultStatus : Result → BitVec 2
  | .extractOk _ => 0
  | .insertOk => 0
  | .tophysOk _ _ => 0
  | .torawOk _ _ => 0
  | .fault f => faultCode f

/-- `CLAMPED`, where the outcome produces it (R20, R21). -/
def resultClamped : Result → Option Bool
  | .extractOk _ => none
  | .insertOk => none
  | .tophysOk _ c => some c
  | .torawOk _ c => some c
  | .fault _ => none

/-- `RAW_OUT`, where the outcome produces it (R20). -/
def resultRawOut : Result → Option Word64
  | .extractOk v => some v
  | .insertOk => none
  | .tophysOk _ _ => none
  | .torawOk v _ => some v
  | .fault _ => none

/-- `PHYS_OUT`, where the outcome produces it (R20). -/
def resultPhysOut : Result → Option F64
  | .extractOk _ => none
  | .insertOk => none
  | .tophysOk y _ => some y
  | .torawOk _ _ => none
  | .fault _ => none

/-- The five fields of the `n`-th response (R20). A field the response does not produce carries a free value (R20, U1;
assumption 2): no claim can depend on it. -/
def responseFields (n : Nat) (p : Response) : ResponseFields :=
  { status := resultStatus p.result
    clamped := (resultClamped p.result).elim (Config.unproducedClamped n) BitVec.ofBool
    payloadOut := p.payloadOut
    rawOut := (resultRawOut p.result).getD (Config.unproducedRawOut n)
    physOut := (resultPhysOut p.result).getD (Config.unproducedPhysOut n) }

/-- What the host reads of the `n`-th response, counted from 0; `none` before it is produced (R25). -/
def hostReads (s : State) (n : Nat) : Option ResponseFields :=
  s.responses[n]?.map (responseFields n)

/-- `clamp(x, MIN, MAX)` (R86): strict comparisons, `MIN` first, the bound returned as given. -/
def clamp (x mn mx : F64) : F64 × Bool :=
  if flt x mn then (mn, true)
  else if fgt x mx then (mx, true)
  else (x, false)

/-- Stage 2 of TORAW for an integer (R89): an integer outside the field is replaced by the nearest one in it. -/
def saturate (t lo hi : Int) : Int × Bool :=
  if t < lo then (lo, true)
  else if hi < t then (hi, true)
  else (t, false)

/-- Stage 2 of TORAW for a quotient (R89): an infinity saturates, a finite value is truncated first. `none` on a NaN, for
which the rule has no case. -/
def quotientToField (q : F64) (lo hi : Int) : Option (Int × Bool) :=
  match classify q with
  | .infinite false => some (hi, true)
  | .infinite true => some (lo, true)
  | .finite _ _ => (truncToInt q).map fun t => saturate t lo hi
  | .nan => none

end Sys2Proof.Machine
end

