-- ==== Sys2Proof/Machine/Ops.lean ====
section
/-! DEFINITION. The shared operations of a transaction: answering it, reporting a fault in it (`60_exceptions.md` rule
R103), the domain check of the converter (R108, R123), and what the host's inputs do (`70_reset_and_hazards.md` rules R120,
R131). There is no return from a fault: CORE keeps no fault state and the next request is handled as any other (R104). -/

namespace Sys2Proof.Machine

/-- The transaction in progress ends with its one response (R13); CORE is then idle and keeps nothing (R10, R131). -/
def State.complete (s : State) (p : Response) : State :=
  { s with transaction := none, responses := s.responses ++ [p] }

/-- A response that leaves the payload alone: `PAYLOAD_OUT = PAYLOAD_IN` (R22). -/
def passThrough (r : Request) (x : Result) : Response :=
  { payloadOut := r.payloadIn
    result := x }

/-- TAKING AN EXCEPTION, CORE's way (R103): the transaction's response carries the fault's code, nothing is saved, no mode
changes and control goes nowhere; the faulting transaction has no other effect. -/
def raiseFault (s : State) (r : Request) (f : Fault) : Host.Outcome State Fault Refusal :=
  .next (s.complete (passThrough r (.fault f)))

/-- An operation runs on the request of the transaction in progress (R13, R19). -/
def withRequest (s : State) (k : Request → Host.Outcome State Fault Refusal) : Host.Outcome State Fault Refusal :=
  match s.transaction with
  | some r => k r
  | none => .refused .noTransaction

/-- The documented domain of the converter (R123): every operand finite, then `MIN <= MAX`; `none` inside it, else the
reason of rule R108. -/
def domainRefusal (operands : List F64) (mn mx : F64) : Option Refusal :=
  if operands.all isFinite then
    if flt mx mn then some .minAboveMax else none
  else some .nonFiniteOperand

/-- Reset is the next thing the outside does. -/
def resetApplied (s : State) : Bool :=
  match s.input with
  | .reset :: _ => true
  | .request _ :: _ => false
  | .wait :: _ => false
  | [] => false

/-- Reset (R120): a transaction in progress is abandoned and produces no response; CORE is idle. What the host has
received stays with the host. -/
def takeReset (s : State) : State :=
  { s with transaction := none, input := s.input.tail }

/-- What an idle CORE does with the host's next input (R13): it takes a request, which is then in progress, or stays idle. -/
def takeInput (s : State) : State :=
  match s.input with
  | .request r :: rest => { s with transaction := some r, input := rest }
  | .reset :: _ => takeReset s
  | .wait :: rest => { s with input := rest }
  | [] => s

/-- The host places the command word `w` in the request of the transaction in progress: the other fields stay, or are zero
where no request stands, and no reset comes first. -/
def State.placeCommand (s : State) (w : Word32) : State :=
  { s with
    transaction := some { s.transaction.getD Request.zero with cmd := w }
    input := s.input.dropWhile fun e => decide (e = .reset) }

end Sys2Proof.Machine
end

