-- ==== Sys2Proof/Machine/BitCodec.lean ====
section
/-! DEFINITION. The Bit Codec: EXTRACT and INSERT (`40_bit_codec.md` rules R70, R71). -/

namespace Sys2Proof.Machine

/-- EXTRACT (R70). -/
def execExtract (c : CmdFields) (s : State) : Host.Outcome State Fault Refusal :=
  withRequest s fun r =>
    if geometryOk c.cap c.order c.startBit c.length then
      .next (s.complete (passThrough r (.extractOk (extractBits ⟨c.cap, r.payloadIn⟩ c.order c.startBit c.length))))
    else raiseFault s r .geometryOutOfRange

/-- INSERT (R71). -/
def execInsert (c : CmdFields) (s : State) : Host.Outcome State Fault Refusal :=
  withRequest s fun r =>
    if geometryOk c.cap c.order c.startBit c.length then
      .next (s.complete
        { payloadOut := (insertBits ⟨c.cap, r.payloadIn⟩ c.order c.startBit c.length r.rawIn).field
          result := .insertOk })
    else raiseFault s r .geometryOutOfRange

end Sys2Proof.Machine
end

