-- ==== Sys2Proof/Machine/Converter.lean ====
section
/-! DEFINITION. The Physical Converter: TOPHYS and TORAW (`41_physical_converter.md` rules R84 to R89). -/

namespace Sys2Proof.Machine

/-- Scaling (R85): `numeric * FACTOR + OFFSET`, two roundings. -/
def scaleUp (k : Int) (factor offset : F64) : F64 :=
  fadd (fmul (intToF64 k) factor) offset

/-- The inverse of scaling (R85): `(physical - OFFSET) / FACTOR`, two roundings. -/
def scaleDown (x factor offset : F64) : F64 :=
  fdiv (fsub x offset) factor

/-- TOPHYS (R88). -/
def execTophys (c : CmdFields) (s : State) : Host.Outcome State Fault Refusal :=
  withRequest s fun r =>
    if lengthOk c.length then
      match domainRefusal [r.factor, r.offset, r.minValue, r.maxValue] r.minValue r.maxValue with
      | some e => .refused e
      | none =>
        let y := clamp (scaleUp (numeric r.rawIn c.length c.isSigned) r.factor r.offset) r.minValue r.maxValue
        .next (s.complete (passThrough r (.tophysOk y.1 y.2)))
    else raiseFault s r .geometryOutOfRange

/-- TORAW (R89): stage 1 clamps to the physical range, stage 2 to the field's range. -/
def execToraw (c : CmdFields) (s : State) : Host.Outcome State Fault Refusal :=
  withRequest s fun r =>
    if lengthOk c.length then
      match domainRefusal [r.physIn, r.factor, r.offset, r.minValue, r.maxValue] r.minValue r.maxValue with
      | some e => .refused e
      | none =>
        if feq r.factor positiveZero then raiseFault s r .scaleDegenerate
        else
          let x := clamp r.physIn r.minValue r.maxValue
          match quotientToField (scaleDown x.1 r.factor r.offset) (fieldLow c.length c.isSigned)
              (fieldHigh c.length c.isSigned) with
          | some k => .next (s.complete (passThrough r (.torawOk (encodeField k.1 c.length) (x.2 || k.2))))
          | none => .refused .nanQuotient
    else raiseFault s r .geometryOutOfRange

end Sys2Proof.Machine
end

