-- ==== Sys2Proof/Machine/Dispatch.lean ====
section
/-! DEFINITION. One arm per operation of the opcode table (`30_encoding.md` rule R52). -/

namespace Sys2Proof.Machine

def exec (i : Instr) (s : State) : Host.Outcome State Fault Refusal :=
  match i with
  | .extract c => Sys2Proof.Machine.execExtract c s
  | .insert c => Sys2Proof.Machine.execInsert c s
  | .tophys c => Sys2Proof.Machine.execTophys c s
  | .toraw c => Sys2Proof.Machine.execToraw c s

end Sys2Proof.Machine
end

