-- ==== Sys2Proof/Machine/Transaction.lean ====
section
/-! DEFINITION. One transaction from its command word (`10_state.md` rule R13, `60_exceptions.md` rule R106). -/

namespace Sys2Proof.Machine

/-- The request in progress is decoded and its operation run; a word that spells no command is refused before anything
else (R106 item 1, R108). An idle CORE takes the host's next input. -/
def runTransaction (s : State) : Host.Outcome State Fault Refusal :=
  match s.transaction with
  | some r =>
    match decode r.cmd with
    | .command i => exec i s
    | .rejected e => .refused (.invalidCommand e)
  | none => .next (takeInput s)

/-- `s` with the command word of an opcode-table row in progress; the bits above `nbits` are zero. -/
def placeTableWord (s : State) (nbits w : Nat) : State :=
  match tableWord nbits w with
  | some v => s.placeCommand v
  | none => s

end Sys2Proof.Machine
end

