-- ==== Sys2Proof/Machine/Step.lean ====
section
/-! DEFINITION. One step of CORE with its host (`10_state.md` rule R13, `70_reset_and_hazards.md` rule R120). -/

namespace Sys2Proof.Machine

/-- One step: a reset the outside applies comes first; else the transaction in progress is run to its response; else an
idle CORE takes the host's next input. -/
def step (s : State) : Host.Outcome State Fault Refusal :=
  if resetApplied s then .next (takeReset s) else runTransaction s

/-- `s` with the instruction whose bits are `w` in progress, so that the very next step runs exactly it (assumption 7). -/
def State.withFetchWord (s : State) (nbits w : Nat) : State :=
  placeTableWord s nbits w

end Sys2Proof.Machine
end

