-- ==== Sys2Proof/Safety.lean ====
section
/-! DEFINITION. What a run of CORE may be relied on for, in the terms the claims use: what the host is told of an
operation, the documented domain (`70_reset_and_hazards.md` rule R123), the field a geometry names, real values and
correct rounding (`41_physical_converter.md` rules R80, R81), and which responses are legal. -/

namespace Sys2Proof.Machine

/-- What the host is told when an operation runs: the response, or that the spec gives the request no meaning. -/
inductive Reply where
  | answered (p : Response)
  | refused (e : Refusal)
  | silent
  deriving DecidableEq, Repr

/-- The reply in an outcome: the newest response of a next state. -/
def reply (o : Host.Outcome State Fault Refusal) : Reply :=
  match o with
  | .next t =>
    match t.responses.getLast? with
    | some p => .answered p
    | none => .silent
  | .fault _ => .silent
  | .refused e => .refused e

/-- What the host is told of request `r` when CORE takes it with nothing before and nothing behind it. -/
def replyTo (r : Request) : Reply :=
  reply (step { State.reset with transaction := some r })

/-- The response that a successful EXTRACT, TOPHYS or TORAW, or any fault, ends the transaction with: `x`, and
`PAYLOAD_OUT = PAYLOAD_IN` (R22). -/
def State.answer (s : State) (r : Request) (x : Result) : State :=
  { s with transaction := none, responses := s.responses ++ [{ payloadOut := r.payloadIn, result := x }] }

/-- The documented domain of TOPHYS (R123). -/
def tophysDomain (r : Request) : Bool :=
  isFinite r.factor && isFinite r.offset && isFinite r.minValue && isFinite r.maxValue && !flt r.maxValue r.minValue

/-- The documented domain of TORAW (R123). -/
def torawDomain (r : Request) : Bool :=
  isFinite r.physIn && tophysDomain r

/-- The documented domain of an operation (R123): every request of the Bit Codec is inside. -/
def inDomain (i : Instr) (r : Request) : Bool :=
  match i with
  | .extract _ => true
  | .insert _ => true
  | .tophys _ => tophysDomain r
  | .toraw _ => torawDomain r

/-- No geometry fault (R101): the bounds check of rule R35 for the Bit Codec, the length check of rule R87 for the
Physical Converter. -/
def geometryLegal (i : Instr) : Bool :=
  match i with
  | .extract c => geometryOk c.cap c.order c.startBit c.length
  | .insert c => geometryOk c.cap c.order c.startBit c.length
  | .tophys c => lengthOk c.length
  | .toraw c => lengthOk c.length

/-- The payload index that carries bit `j` of a raw value of length `n` (R33): Intel counts up from the start bit,
Motorola's most significant bit stands at the start bit. -/
def fieldIndex (order : ByteOrder) (s n j : Nat) : Nat :=
  match order with
  | .intel => s + j
  | .motorola => s - (n - 1 - j)

/-- Two geometries touch no common payload bit (R35, R74). -/
def disjointFields (c d : CmdFields) : Prop :=
  ∀ b : Int, b ∈ touched c.order c.startBit c.length → b ∉ touched d.order d.startBit d.length

/-- The real number a finite pattern stands for (R80); 0 for an infinity or a NaN, which stand for none. -/
def floatValue (x : F64) : ℚ :=
  match classify x with
  | .finite s m => (signedMag s m : ℚ) / 2 ^ 1074
  | .infinite _ => 0
  | .nan => 0

/-- Halfway from the largest finite binary64 value, 2^1024 - 2^971, to 2^1024: from here on rounding to nearest with ties
to even exceeds the largest finite value. -/
def overflowBound : ℚ :=
  2 ^ 1024 - 2 ^ 970

/-- `x` is the exact real `v` rounded once to binary64 (R81): the nearest finite value; where another finite value is as
near, the one whose last fraction bit is even; beyond the largest finite value, the infinity of `v`'s sign. -/
def RoundsTo (v : ℚ) (x : F64) : Prop :=
  if |v| < overflowBound then
    isFinite x = true ∧
    (∀ y : F64, isFinite y = true → |floatValue x - v| ≤ |floatValue y - v|) ∧
    (∀ y : F64, isFinite y = true → floatValue y ≠ floatValue x → |floatValue y - v| = |floatValue x - v| →
      x.getLsbD 0 = false)
  else classify x = .infinite (decide (v < 0))

/-- What every response CORE produces satisfies (R57, R88): `STATUS` is never 3, and a `PHYS_OUT` it produces is finite. -/
def Response.legal (p : Response) : Prop :=
  resultStatus p.result ≠ 3 ∧ ∀ y, resultPhysOut p.result = some y → isFinite y = true

/-- Every response the host has received is legal. -/
def State.legal (s : State) : Prop :=
  ∀ p ∈ s.responses, p.legal

/-- How many requests the outside has still to issue. -/
def requestsToCome (s : State) : Nat :=
  s.input.countP fun e => match e with
    | .request _ => true
    | .reset => false
    | .wait => false

/-- 1 while a transaction is in progress, else 0. -/
def inProgress (s : State) : Nat :=
  s.transaction.toList.length

end Sys2Proof.Machine
end

