-- ==== Sys2Proof/Certificates/Slice0/Obligations.lean ====
section
/-! DEFINITION. The statements about CORE, for the provers. Each docstring names the rule of the spec it formalises. -/

open Sys2Proof Sys2Proof.Machine

/-! ### The command word (`30_encoding.md`) -/

/-- Decoding an encoded command gives it back, with every field at every value the encoding admits, the fields its
operation ignores included (R50, R51). -/
def Obligations.DecodeOfEncode : Prop :=
  ∀ i : Instr, i.wf = true → decode (encode i) = .command i

/-- A word that decodes is the encoding of what it decodes to, and that is well formed: no two words spell one command and
no bit is dropped (R50, R51). -/
def Obligations.EncodeOfDecode : Prop :=
  ∀ (w : Word32) (i : Instr), decode w = .command i → i.wf = true ∧ encode i = w

/-- R52: a word W spells operation k exactly when `W & 0xFF80C003 = k` and, for EXTRACT and INSERT, `CAP` <= 8; no other
word spells a command. -/
def Obligations.WordSpellsOperation : Prop :=
  (∀ (w : Word32) (k : Nat), k < 4 →
    ((∃ i, decode w = .command i ∧ i.op = k) ↔
      (w &&& 0xFF80C003#32 = BitVec.ofNat 32 k ∧ (k ≤ 1 → (w.extractLsb' 4 4).toNat ≤ 8)))) ∧
  (∀ (w : Word32) (i : Instr), decode w = .command i → i.op < 4)

/-- R51: each field of a command is one contiguous slice of `CMD` read as an unsigned integer. -/
def Obligations.CommandFieldsAreSlices : Prop :=
  ∀ (w : Word32) (i : Instr), decode w = .command i →
    i.op = (w.extractLsb' 0 2).toNat ∧
    i.fields.order = (if w.getLsbD 2 then .motorola else .intel) ∧
    i.fields.isSigned = w.getLsbD 3 ∧
    i.fields.cap = (w.extractLsb' 4 4).toNat ∧
    i.fields.startBit = (w.extractLsb' 8 6).toNat ∧
    i.fields.length = (w.extractLsb' 16 7).toNat

/-- R59: a line of the assembler syntax assembles to a word that decodes to the line's operation with the fields it names
and 0 in every field it does not name. -/
def Obligations.AssembledLineDecodes : Prop :=
  (∀ o cap start len, (AsmLine.extract o cap start len).wf = true →
    decode (AsmLine.extract o cap start len).assemble = .command (.extract ⟨o, false, cap, start, len⟩)) ∧
  (∀ o cap start len, (AsmLine.insert o cap start len).wf = true →
    decode (AsmLine.insert o cap start len).assemble = .command (.insert ⟨o, false, cap, start, len⟩)) ∧
  (∀ g len, (AsmLine.tophys g len).wf = true →
    decode (AsmLine.tophys g len).assemble = .command (.tophys ⟨.intel, g, 0, 0, len⟩)) ∧
  (∀ g len, (AsmLine.toraw g len).wf = true →
    decode (AsmLine.toraw g len).assemble = .command (.toraw ⟨.intel, g, 0, 0, len⟩))

/-- Words written out from rule R50's layout decode to the commands they stand for (VE5, VI2, VP26, VX7, VX3, VX4). -/
def Obligations.SampleWordsDecode : Prop :=
  decode 0x000C0C80#32 = .command (.extract ⟨.intel, false, 8, 12, 12⟩) ∧
  decode 0x00101785#32 = .command (.insert ⟨.motorola, false, 8, 23, 16⟩) ∧
  decode 0x00083FFE#32 = .command (.tophys ⟨.motorola, true, 15, 63, 8⟩) ∧
  decode 0x007F3FFF#32 = .command (.toraw ⟨.motorola, true, 15, 63, 127⟩) ∧
  decode 0x00800002#32 = .rejected .reservedBits ∧
  decode 0x00080090#32 = .rejected .capAboveEight

/-! ### Payload addressing (`20_memory.md`) -/

/-- R36 (the spec's own derivation from R33 and R35): the bounds check in closed form, both orders. -/
def Obligations.BoundsCheckInClosedForm : Prop :=
  ∀ cap s n : Nat,
    (geometryOk cap .intel s n = true ↔ 1 ≤ n ∧ n ≤ 64 ∧ s + n ≤ cap * 8) ∧
    (geometryOk cap .motorola s n = true ↔ 1 ≤ n ∧ n ≤ 64 ∧ n ≤ s + 1 ∧ s + 1 ≤ cap * 8)

/-- R39 (derived there from R33): every touched index is touched once. -/
def Obligations.EachIndexTouchedOnce : Prop :=
  ∀ (o : ByteOrder) (s n : Nat), (touched o s n).Nodup ∧ (touched o s n).length = n

/-- R75 (derived there from R33): for the same start bit and length the two orders share exactly the start bit. -/
def Obligations.OrdersShareOnlyTheStartBit : Prop :=
  ∀ (s n : Nat) (b : Int), 1 ≤ n →
    ((b ∈ touched .intel s n ∧ b ∈ touched .motorola s n) ↔ b = s)

/-- R73: on an 8-byte payload there are 65 - n legal start bits for each length n and 2080 legal pairs, in each order. -/
def Obligations.LegalGeometriesOfAnEightBytePayload : Prop :=
  ∀ o : ByteOrder,
    (∀ n, 1 ≤ n → n ≤ 64 → (List.range 64).countP (fun s => geometryOk 8 o s n) = 65 - n) ∧
    ((List.range 128).map fun n => (List.range 64).countP (fun s => geometryOk 8 o s n)).sum = 2080

/-! ### EXTRACT and INSERT (`40_bit_codec.md`) -/

/-- R70: EXTRACT. With a legal geometry it completes, `RAW_OUT` carries at bit `i` (Intel) or `length-1-i` (Motorola) the
payload bit `start_bit + i` or `start_bit - i`, and zeros above; otherwise it is the geometry fault. The payload passes
through. -/
def Obligations.ExtractReadsTheField : Prop :=
  ∀ (c : CmdFields) (s : State) (r : Request), s.transaction = some r → (Instr.extract c).wf = true →
    (geometryOk c.cap c.order c.startBit c.length = true →
      ∃ v : Word64, exec (.extract c) s = .next (s.answer r (.extractOk v)) ∧
        (c.order = .intel → ∀ i < c.length, v.getLsbD i = r.payloadIn.getLsbD (c.startBit + i)) ∧
        (c.order = .motorola → ∀ i < c.length, v.getLsbD (c.length - 1 - i) = r.payloadIn.getLsbD (c.startBit - i)) ∧
        (∀ j, c.length ≤ j → v.getLsbD j = false)) ∧
    (geometryOk c.cap c.order c.startBit c.length = false →
      exec (.extract c) s = .next (s.answer r (.fault .geometryOutOfRange)))

/-- R70 (closed form, derived there): `RAW_OUT` is the payload shifted down by the field's lowest index, cut to `length`
bits. -/
def Obligations.ExtractIsShiftAndMask : Prop :=
  ∀ (c : CmdFields) (s : State) (r : Request), s.transaction = some r → (Instr.extract c).wf = true →
    geometryOk c.cap c.order c.startBit c.length = true →
      exec (.extract c) s = .next (s.answer r (.extractOk
        ((r.payloadIn >>> (fieldIndex c.order c.startBit c.length 0)) &&& BitVec.ofNat 64 (2 ^ c.length - 1))))

/-- R39, R70: EXTRACT's outcome depends on the touched payload bits alone: two requests that agree on them get the same
result, whatever else they hold, the payload bytes at and beyond the capacity included. -/
def Obligations.ExtractReadsNothingElse : Prop :=
  ∀ (c : CmdFields) (s t : State) (r q : Request), s.transaction = some r → t.transaction = some q →
    (Instr.extract c).wf = true →
    (∀ b : Nat, (b : Int) ∈ touched c.order c.startBit c.length → r.payloadIn.getLsbD b = q.payloadIn.getLsbD b) →
    ∃ x : Result, exec (.extract c) s = .next (s.answer r x) ∧ exec (.extract c) t = .next (t.answer q x)

/-- R71: INSERT. With a legal geometry it completes, each payload bit `start_bit + i` (Intel) or `start_bit - i` (Motorola)
is `RAW_IN`'s bit `i` or `length-1-i`, and every other payload bit is as before; otherwise it is the geometry fault and the
payload is unchanged. -/
def Obligations.InsertWritesTheFieldOnly : Prop :=
  ∀ (c : CmdFields) (s : State) (r : Request), s.transaction = some r → (Instr.insert c).wf = true →
    (geometryOk c.cap c.order c.startBit c.length = true →
      ∃ p : Word64, exec (.insert c) s =
          .next { s with transaction := none, responses := s.responses ++ [{ payloadOut := p, result := .insertOk }] } ∧
        (c.order = .intel → ∀ i < c.length, p.getLsbD (c.startBit + i) = r.rawIn.getLsbD i) ∧
        (c.order = .motorola → ∀ i < c.length, p.getLsbD (c.startBit - i) = r.rawIn.getLsbD (c.length - 1 - i)) ∧
        (∀ b : Nat, (b : Int) ∉ touched c.order c.startBit c.length → p.getLsbD b = r.payloadIn.getLsbD b)) ∧
    (geometryOk c.cap c.order c.startBit c.length = false →
      exec (.insert c) s = .next (s.answer r (.fault .geometryOutOfRange)))

/-- R71 (closed form, derived there): with `t` the field's lowest index and `m = (2^n - 1) << t`,
`PAYLOAD_OUT = (PAYLOAD_IN & ~m) | ((RAW_IN << t) & m)`. -/
def Obligations.InsertIsMaskAndMerge : Prop :=
  ∀ (c : CmdFields) (s : State) (r : Request), s.transaction = some r → (Instr.insert c).wf = true →
    geometryOk c.cap c.order c.startBit c.length = true →
      let t := fieldIndex c.order c.startBit c.length 0
      let m := BitVec.ofNat 64 (2 ^ c.length - 1) <<< t
      exec (.insert c) s = .next { s with
        transaction := none
        responses := s.responses ++
          [{ payloadOut := (r.payloadIn &&& ~~~m) ||| ((r.rawIn <<< t) &&& m), result := .insertOk }] }

/-- R73, the round-trip law: what INSERT wrote, EXTRACT with the same geometry reads back, from any starting payload, for
any capacity the geometry is legal for, and for any 64-bit value with its low `length` bits in its place. -/
def Obligations.ExtractAfterInsertReturnsTheValue : Prop :=
  ∀ (c : CmdFields) (g : Bool) (s t : State) (r q : Request), s.transaction = some r → t.transaction = some q →
    (Instr.insert c).wf = true → geometryOk c.cap c.order c.startBit c.length = true →
      ∃ p : Word64,
        exec (.insert c) s =
          .next { s with transaction := none, responses := s.responses ++ [{ payloadOut := p, result := .insertOk }] } ∧
        (q.payloadIn = p → ∃ v : Word64,
          exec (.extract { c with isSigned := g }) t = .next (t.answer q (.extractOk v)) ∧
          v.toNat = r.rawIn.toNat % 2 ^ c.length)

/-- R74 (derived there from R71): two signals whose touched sets are disjoint can be inserted in either order with the same
final payload. The second INSERT of each order takes the first one's `PAYLOAD_OUT` as its `PAYLOAD_IN` (R42). -/
def Obligations.DisjointInsertsCommute : Prop :=
  ∀ (c d : CmdFields) (x y w : Word64), (Instr.insert c).wf = true → (Instr.insert d).wf = true →
    geometryOk c.cap c.order c.startBit c.length = true → geometryOk d.cap d.order d.startBit d.length = true →
    disjointFields c d →
    ∀ (s : State) (r : Request), ∃ p q z : Word64,
      reply (exec (.insert c) { s with transaction := some { r with payloadIn := w, rawIn := x } }) = .answered ⟨p, .insertOk⟩ ∧
      reply (exec (.insert d) { s with transaction := some { r with payloadIn := p, rawIn := y } }) = .answered ⟨z, .insertOk⟩ ∧
      reply (exec (.insert d) { s with transaction := some { r with payloadIn := w, rawIn := y } }) = .answered ⟨q, .insertOk⟩ ∧
      reply (exec (.insert c) { s with transaction := some { r with payloadIn := q, rawIn := x } }) = .answered ⟨z, .insertOk⟩

/-- R71 (its corner cases): writing a field twice leaves the second value, and the first insertion leaves no trace. -/
def Obligations.SecondInsertOverwritesTheFirst : Prop :=
  ∀ (c : CmdFields) (x y w : Word64), (Instr.insert c).wf = true →
    geometryOk c.cap c.order c.startBit c.length = true →
    ∀ (s : State) (r : Request), ∃ p z : Word64,
      reply (exec (.insert c) { s with transaction := some { r with payloadIn := w, rawIn := x } }) = .answered ⟨p, .insertOk⟩ ∧
      reply (exec (.insert c) { s with transaction := some { r with payloadIn := p, rawIn := y } }) = .answered ⟨z, .insertOk⟩ ∧
      reply (exec (.insert c) { s with transaction := some { r with payloadIn := w, rawIn := y } }) = .answered ⟨z, .insertOk⟩

/-- R37 (derived there from R33): a Motorola request does exactly what the Intel request with start bit s - n + 1 does, in
every state, faults included. -/
def Obligations.MotorolaIsIntelFromTheOtherEnd : Prop :=
  ∀ (c : CmdFields) (s : State), c.cap ≤ 8 → 1 ≤ c.length → c.length ≤ c.startBit + 1 →
    exec (.extract { c with order := .motorola }) s =
      exec (.extract { c with order := .intel, startBit := c.startBit + 1 - c.length }) s ∧
    exec (.insert { c with order := .motorola }) s =
      exec (.insert { c with order := .intel, startBit := c.startBit + 1 - c.length }) s

/-! ### Numerics (`41_physical_converter.md`, section 1) -/

/-- R80: `is_finite` reads the exponent field, and the format's example patterns stand for the numbers the rule
gives (general knowledge the spec supplies, G1; so is the layout). -/
def Obligations.FormatExamples : Prop :=
  (∀ x : F64, isFinite x = true ↔ (x.extractLsb' 52 11).toNat ≠ 2047) ∧
  floatValue 0x3FF0000000000000#64 = 1 ∧
  floatValue 0xBFF0000000000000#64 = -1 ∧
  floatValue 0x3FE0000000000000#64 = 1 / 2 ∧
  floatValue 0x4072C00000000000#64 = 300 ∧
  floatValue 0x0000000000000001#64 = 1 / 2 ^ 1074 ∧
  classify 0x7FF0000000000000#64 = .infinite false ∧
  classify 0xFFF0000000000000#64 = .infinite true ∧
  classify 0x7FF8000000000000#64 = .nan

/-- R81: each arithmetic primitive is the exact real result rounded once to the nearest binary64 value, ties to even,
with overflow to the infinity of the sign and gradual underflow (general knowledge the spec supplies, G2). -/
def Obligations.ArithmeticIsCorrectlyRounded : Prop :=
  ∀ a b : F64, isFinite a = true → isFinite b = true →
    RoundsTo (floatValue a * floatValue b) (fmul a b) ∧
    RoundsTo (floatValue a + floatValue b) (fadd a b) ∧
    RoundsTo (floatValue a - floatValue b) (fsub a b) ∧
    (floatValue b ≠ 0 → RoundsTo (floatValue a / floatValue b) (fdiv a b))

/-- The signs of zero results, as R88 gives them (0 times a negative factor is -0; -0 plus +0 is +0) and G2 in general: a
product and a quotient take the exclusive or of the signs, an exact zero sum is -0 only when both addends are negative. -/
def Obligations.SignsOfResults : Prop :=
  ∀ a b : F64, isFinite a = true → isFinite b = true →
    floatSign (fmul a b) = (floatSign a ^^ floatSign b) ∧
    (floatValue b ≠ 0 → floatSign (fdiv a b) = (floatSign a ^^ floatSign b)) ∧
    (floatValue a + floatValue b = 0 → floatSign (fadd a b) = (floatSign a && floatSign b))

/-- R82: the comparisons are those of the real values of finite operands, an infinity lies beyond every finite value, +0 and
-0 are equal, and every comparison with a NaN is false (general knowledge the spec
supplies, G3). -/
def Obligations.ComparisonsAreOfRealValues : Prop :=
  (∀ a b : F64, isFinite a = true → isFinite b = true →
    (flt a b = true ↔ floatValue a < floatValue b) ∧
    (fgt a b = true ↔ floatValue b < floatValue a) ∧
    (feq a b = true ↔ floatValue a = floatValue b)) ∧
  (∀ (a b : F64) (neg : Bool), classify a = .infinite neg → isFinite b = true →
    flt a b = neg ∧ flt b a = !neg ∧ fgt a b = !neg ∧ fgt b a = neg ∧ feq a b = false ∧ feq b a = false) ∧
  (∀ a b : F64, classify a = .nan ∨ classify b = .nan → flt a b = false ∧ fgt a b = false ∧ feq a b = false) ∧
  (∀ x : F64, feq x positiveZero = true ↔ x = 0x0000000000000000#64 ∨ x = 0x8000000000000000#64)

/-- The arithmetic on an infinity, as the format's own rules have it (assumption 6): an infinite first operand stays infinite
under adding, subtracting and dividing by a finite value, with the sign that the operation gives it. R88 and R89 meet it only
after an overflow. -/
def Obligations.InfinitiesPropagate : Prop :=
  ∀ (a b : F64) (neg : Bool), classify a = .infinite neg → isFinite b = true →
    classify (fadd a b) = .infinite neg ∧
    classify (fsub a b) = .infinite neg ∧
    classify (fdiv a b) = .infinite (neg ^^ floatSign b)

/-- R83: `int_to_f64` gives the nearest binary64 value, ties to even, and is exact up to 2^53 in magnitude and for every
integer of at most 53 significant bits (general
knowledge the spec supplies, G4). -/
def Obligations.IntegersConvertToTheNearestValue : Prop :=
  (∀ k : Int, -(2 ^ 63) ≤ k → k ≤ 2 ^ 64 - 1 → RoundsTo k (intToF64 k)) ∧
  (∀ k : Int, k.natAbs ≤ 2 ^ 53 → floatValue (intToF64 k) = k) ∧
  (∀ (m : Int) (e : Nat), m.natAbs < 2 ^ 53 → -(2 ^ 63) ≤ m * 2 ^ e → m * 2 ^ e ≤ 2 ^ 64 - 1 →
    floatValue (intToF64 (m * 2 ^ e)) = (m : ℚ) * 2 ^ e)

/-- R83: `trunc_to_int` of a finite x is the integer of largest magnitude not exceeding |x|, with the sign of x, exact and
unbounded; an infinity or a NaN has none. -/
def Obligations.TruncationDropsTheFraction : Prop :=
  (∀ x : F64, isFinite x = true → ∃ t : Int, truncToInt x = some t ∧
    |(t : ℚ)| ≤ |floatValue x| ∧ |floatValue x| < |(t : ℚ)| + 1 ∧ 0 ≤ (t : ℚ) * floatValue x) ∧
  (∀ x : F64, isFinite x = false → truncToInt x = none)

/-! ### The conversions (`41_physical_converter.md`, sections 2 to 4) -/

/-- R84: the numeric value of a raw value: its low n bits, read as two's complement when signed, as unsigned otherwise; so
it lies in the field's range, and bits at n and above do not matter. -/
def Obligations.NumericValueOfRaw : Prop :=
  ∀ (r : Word64) (n : Nat), 1 ≤ n → n ≤ 64 →
    numeric r n true = (r.setWidth n).toInt ∧
    numeric r n false = ((r.setWidth n).toNat : Int) ∧
    (-(2 ^ (n - 1)) ≤ numeric r n true ∧ numeric r n true ≤ 2 ^ (n - 1) - 1) ∧
    (0 ≤ numeric r n false ∧ numeric r n false ≤ 2 ^ n - 1)

/-- R90 (derived there from R84 and R89): encoding an integer of the field and reading it back gives the integer, and the
encoding has no bit at n or above. -/
def Obligations.FieldEncodingReadsBack : Prop :=
  ∀ (k : Int) (n : Nat) (g : Bool), 1 ≤ n → n ≤ 64 → fieldLow n g ≤ k → k ≤ fieldHigh n g →
    numeric (encodeField k n) n g = k ∧ (encodeField k n).toNat < 2 ^ n

/-- R86: the clamp: below `MIN` becomes `MIN`, above `MAX` becomes `MAX`, the bound as given, flagged; anything else, a
value equal to a bound included, is returned unchanged and unflagged. -/
def Obligations.ClampIsStrict : Prop :=
  ∀ x mn mx : F64, isFinite mn = true → isFinite mx = true → flt mx mn = false →
    (flt x mn = true → clamp x mn mx = (mn, true)) ∧
    (fgt x mx = true → clamp x mn mx = (mx, true)) ∧
    (flt x mn = false → fgt x mx = false → clamp x mn mx = (x, false)) ∧
    (feq x mn = true ∨ feq x mx = true → clamp x mn mx = (x, false))

/-- R88: TOPHYS. Length fault first; outside the documented domain it is refused; inside it completes with the scaled value
clamped to [`MIN`, `MAX`], `CLAMPED` = 1 exactly when the scaled value was below `MIN` or above `MAX`. -/
def Obligations.TophysScalesAndClamps : Prop :=
  ∀ (c : CmdFields) (s : State) (r : Request), s.transaction = some r →
    (lengthOk c.length = false → exec (.tophys c) s = .next (s.answer r (.fault .geometryOutOfRange))) ∧
    (lengthOk c.length = true → tophysDomain r = false →
      exec (.tophys c) s = .refused .nonFiniteOperand ∨ exec (.tophys c) s = .refused .minAboveMax) ∧
    (lengthOk c.length = true → tophysDomain r = true →
      let p := fadd (fmul (intToF64 (numeric r.rawIn c.length c.isSigned)) r.factor) r.offset
      (flt p r.minValue = true → exec (.tophys c) s = .next (s.answer r (.tophysOk r.minValue true))) ∧
      (fgt p r.maxValue = true → exec (.tophys c) s = .next (s.answer r (.tophysOk r.maxValue true))) ∧
      (flt p r.minValue = false → fgt p r.maxValue = false →
        exec (.tophys c) s = .next (s.answer r (.tophysOk p false))))

/-- R88 (derived there from R81, R82, R86): inside the documented domain TOPHYS answers a finite `PHYS_OUT` that lies in
[`MIN`, `MAX`], never a NaN or an infinity, though the scaling may overflow. -/
def Obligations.TophysAnswersWithinTheBounds : Prop :=
  ∀ (c : CmdFields) (s : State) (r : Request), s.transaction = some r → lengthOk c.length = true →
    tophysDomain r = true →
    ∃ (y : F64) (clamped : Bool), exec (.tophys c) s = .next (s.answer r (.tophysOk y clamped)) ∧
      isFinite y = true ∧ floatValue r.minValue ≤ floatValue y ∧ floatValue y ≤ floatValue r.maxValue

/-- R89: TORAW. Length fault first; outside the documented domain it is refused; a zero factor is ScaleDegenerate; else it
completes: stage 1 clamps `PHYS_IN`, the quotient is truncated toward zero, stage 2 saturates to the field, and `CLAMPED` is
1 when either stage replaced a value. -/
def Obligations.TorawConverts : Prop :=
  ∀ (c : CmdFields) (s : State) (r : Request), s.transaction = some r →
    (lengthOk c.length = false → exec (.toraw c) s = .next (s.answer r (.fault .geometryOutOfRange))) ∧
    (lengthOk c.length = true → torawDomain r = false →
      exec (.toraw c) s = .refused .nonFiniteOperand ∨ exec (.toraw c) s = .refused .minAboveMax) ∧
    (lengthOk c.length = true → torawDomain r = true → feq r.factor positiveZero = true →
      exec (.toraw c) s = .next (s.answer r (.fault .scaleDegenerate))) ∧
    (lengthOk c.length = true → torawDomain r = true → feq r.factor positiveZero = false →
      let x := if flt r.physIn r.minValue then r.minValue else if fgt r.physIn r.maxValue then r.maxValue else r.physIn
      let c1 := flt r.physIn r.minValue || fgt r.physIn r.maxValue
      let q := fdiv (fsub x r.offset) r.factor
      let lo : Int := if c.isSigned then -(2 ^ (c.length - 1)) else 0
      let hi : Int := if c.isSigned then 2 ^ (c.length - 1) - 1 else 2 ^ c.length - 1
      ∃ (k : Int) (c2 : Bool),
        exec (.toraw c) s =
          .next (s.answer r (.torawOk (BitVec.ofNat 64 (k % 2 ^ c.length).toNat) (c1 || c2))) ∧
        ((classify q = .infinite false ∧ k = hi ∧ c2 = true) ∨
         (classify q = .infinite true ∧ k = lo ∧ c2 = true) ∨
         (∃ t : Int, truncToInt q = some t ∧
           ((t < lo ∧ k = lo ∧ c2 = true) ∨ (hi < t ∧ k = hi ∧ c2 = true) ∨ (lo ≤ t ∧ t ≤ hi ∧ k = t ∧ c2 = false)))))

/-- R89 (derived there from R81, R82): no operation in no state meets a NaN quotient. -/
def Obligations.TorawQuotientIsNeverNan : Prop :=
  ∀ (i : Instr) (s : State), exec i s ≠ .refused .nanQuotient

/-- R89, R90: what TORAW answers fits the field: `RAW_OUT` has no bit at `length` or above and reads back as an integer of
the field's range; and when `CLAMPED` is 0 that integer is the truncated quotient of `PHYS_IN` itself. -/
def Obligations.TorawAnswersWithinTheField : Prop :=
  ∀ (c : CmdFields) (s : State) (r : Request), s.transaction = some r → lengthOk c.length = true →
    torawDomain r = true → feq r.factor positiveZero = false →
    ∃ (raw : Word64) (clamped : Bool), exec (.toraw c) s = .next (s.answer r (.torawOk raw clamped)) ∧
      raw.toNat < 2 ^ c.length ∧
      fieldLow c.length c.isSigned ≤ numeric raw c.length c.isSigned ∧
      numeric raw c.length c.isSigned ≤ fieldHigh c.length c.isSigned ∧
      (clamped = false →
        truncToInt (fdiv (fsub r.physIn r.offset) r.factor) = some (numeric raw c.length c.isSigned))

/-- R89: the result for `PHYS_IN` above `MAX` is the result for `MAX`, with `CLAMPED` = 1; below `MIN`, that for `MIN`. -/
def Obligations.TorawBeyondABoundConvertsTheBound : Prop :=
  ∀ (c : CmdFields) (s : State) (r : Request) (bound : F64), s.transaction = some r → lengthOk c.length = true →
    torawDomain r = true → feq r.factor positiveZero = false →
    (fgt r.physIn r.maxValue = true ∧ bound = r.maxValue) ∨ (flt r.physIn r.minValue = true ∧ bound = r.minValue) →
    ∃ (raw : Word64) (clamped : Bool),
      exec (.toraw c) s = .next (s.answer r (.torawOk raw true)) ∧
      exec (.toraw c) { s with transaction := some { r with physIn := bound } } =
        .next (s.answer r (.torawOk raw clamped))

/-! ### Faults and refusals (`60_exceptions.md`) -/

/-- R101: GeometryOutOfRange is raised by EXTRACT and INSERT exactly when `LENGTH` is 0 or above 64 or some touched index
is negative or at least `CAP*8`, and by TOPHYS and TORAW exactly when `LENGTH` is 0 or above 64; the payload is then
unchanged. -/
def Obligations.GeometryFaultExactlyWhen : Prop :=
  ∀ (c : CmdFields) (s : State) (r : Request), s.transaction = some r →
    (exec (.extract c) s = .next (s.answer r (.fault .geometryOutOfRange)) ↔
      c.length = 0 ∨ 64 < c.length ∨
        ∃ i < c.length, srcIndex c.order c.startBit i < 0 ∨ (c.cap * 8 : Int) ≤ srcIndex c.order c.startBit i) ∧
    (exec (.insert c) s = .next (s.answer r (.fault .geometryOutOfRange)) ↔
      c.length = 0 ∨ 64 < c.length ∨
        ∃ i < c.length, srcIndex c.order c.startBit i < 0 ∨ (c.cap * 8 : Int) ≤ srcIndex c.order c.startBit i) ∧
    (exec (.tophys c) s = .next (s.answer r (.fault .geometryOutOfRange)) ↔ c.length = 0 ∨ 64 < c.length) ∧
    (exec (.toraw c) s = .next (s.answer r (.fault .geometryOutOfRange)) ↔ c.length = 0 ∨ 64 < c.length)

/-- R102: ScaleDegenerate is raised by TORAW exactly when `FACTOR` is +0 or -0 (with a legal length, inside the documented
domain), and by no other operation. -/
def Obligations.ScaleFaultExactlyWhen : Prop :=
  ∀ (i : Instr) (s : State) (r : Request), s.transaction = some r →
    (exec i s = .next (s.answer r (.fault .scaleDegenerate)) ↔
      ∃ c : CmdFields, i = .toraw c ∧ 1 ≤ c.length ∧ c.length ≤ 64 ∧ torawDomain r = true ∧
        (r.factor = 0x0000000000000000#64 ∨ r.factor = 0x8000000000000000#64))

/-- R103: a fault is a response and nothing else: the faulting operation changes no payload bit, leaves the rest of the
state alone and leaves CORE idle; and no operation ends the run with a fault outcome. -/
def Obligations.FaultsAreReportedInBand : Prop :=
  (∀ (i : Instr) (s t : State) (r : Request) (p : Response) (f : Fault), s.transaction = some r → exec i s = .next t →
    t.responses = s.responses ++ [p] → p.result = .fault f → t = s.answer r (.fault f)) ∧
  (∀ (i : Instr) (s : State) (f : Fault), exec i s ≠ .fault f)

/-- R108: the requests of the converter that are refused, and for which reason: a non-finite operand, else `MAX < MIN`, with
a legal length; EXTRACT and INSERT are never refused. That a non-finite operand is named before `MAX < MIN` is the model's
choice (assumption 8). -/
def Obligations.RefusedExactlyOutsideTheDomain : Prop :=
  ∀ (c : CmdFields) (s : State) (r : Request), s.transaction = some r →
    (∀ e, exec (.extract c) s ≠ .refused e) ∧
    (∀ e, exec (.insert c) s ≠ .refused e) ∧
    (exec (.tophys c) s = .refused .nonFiniteOperand ↔ 1 ≤ c.length ∧ c.length ≤ 64 ∧
      ¬ (isFinite r.factor = true ∧ isFinite r.offset = true ∧ isFinite r.minValue = true ∧ isFinite r.maxValue = true)) ∧
    (exec (.tophys c) s = .refused .minAboveMax ↔ 1 ≤ c.length ∧ c.length ≤ 64 ∧
      isFinite r.factor = true ∧ isFinite r.offset = true ∧ isFinite r.minValue = true ∧ isFinite r.maxValue = true ∧
      flt r.maxValue r.minValue = true) ∧
    (exec (.toraw c) s = .refused .nonFiniteOperand ↔ 1 ≤ c.length ∧ c.length ≤ 64 ∧
      ¬ (isFinite r.physIn = true ∧ isFinite r.factor = true ∧ isFinite r.offset = true ∧ isFinite r.minValue = true ∧
        isFinite r.maxValue = true)) ∧
    (exec (.toraw c) s = .refused .minAboveMax ↔ 1 ≤ c.length ∧ c.length ≤ 64 ∧
      isFinite r.physIn = true ∧ isFinite r.factor = true ∧ isFinite r.offset = true ∧ isFinite r.minValue = true ∧
      isFinite r.maxValue = true ∧ flt r.maxValue r.minValue = true)

/-- R106: the one outcome of a transaction, in the rule's order: no command, refused; GeometryOutOfRange; outside the
documented domain, refused; ScaleDegenerate; else OK. -/
def Obligations.OutcomesInPriorityOrder : Prop :=
  ∀ (s : State) (r : Request), s.transaction = some r → s.input.head? ≠ some .reset →
    (∀ e, decode r.cmd = .rejected e → step s = .refused (.invalidCommand e)) ∧
    (∀ i, decode r.cmd = .command i →
      (geometryLegal i = false → step s = .next (s.answer r (.fault .geometryOutOfRange))) ∧
      (geometryLegal i = true → inDomain i r = false →
        step s = .refused .nonFiniteOperand ∨ step s = .refused .minAboveMax) ∧
      (geometryLegal i = true → inDomain i r = true → i.op = 3 → feq r.factor positiveZero = true →
        step s = .next (s.answer r (.fault .scaleDegenerate))) ∧
      (geometryLegal i = true → inDomain i r = true → (i.op = 3 → feq r.factor positiveZero = false) →
        ∃ p : Response, step s = .next { s with transaction := none, responses := s.responses ++ [p] } ∧
          resultStatus p.result = 0))

/-- R57: `STATUS` is 0 for OK, 1 for GeometryOutOfRange, 2 for ScaleDegenerate; the value 3 is never produced. -/
def Obligations.StatusCodes : Prop :=
  ∀ (n : Nat) (p : Response),
    ((responseFields n p).status = 0 ↔ ∀ f, p.result ≠ .fault f) ∧
    ((responseFields n p).status = 1 ↔ p.result = .fault .geometryOutOfRange) ∧
    ((responseFields n p).status = 2 ↔ p.result = .fault .scaleDegenerate) ∧
    (responseFields n p).status ≠ 3

/-- R20: what the host reads of each produced field of a response; what a response does not produce is a free value, of
which this says nothing. -/
def Obligations.ProducedFieldsAreRead : Prop :=
  ∀ (n : Nat) (p v y : Word64) (k : Bool),
    (responseFields n ⟨p, .extractOk v⟩).rawOut = v ∧
    (responseFields n ⟨p, .torawOk v k⟩).rawOut = v ∧
    (responseFields n ⟨p, .torawOk v k⟩).clamped = BitVec.ofBool k ∧
    (responseFields n ⟨p, .tophysOk y k⟩).physOut = y ∧
    (responseFields n ⟨p, .tophysOk y k⟩).clamped = BitVec.ofBool k ∧
    (∀ x, (responseFields n ⟨p, x⟩).payloadOut = p)

/-! ### The transaction (`10_state.md`, `70_reset_and_hazards.md`) -/

/-- R13, R131, the frame of all four operations: an operation that completes ends the transaction with exactly one
response; the host's inputs and the responses it already has are unchanged. -/
def Obligations.OperationAddsOneResponse : Prop :=
  ∀ (i : Instr) (s t : State), exec i s = .next t →
    t.transaction = none ∧ t.input = s.input ∧ ∃ p, t.responses = s.responses ++ [p]

/-- R22, the frame of the payload: `PAYLOAD_OUT` is `PAYLOAD_IN` in every response but a successful INSERT's; in that one
too, every bit outside the touched ones is as before; so every byte at and beyond the capacity passes through. -/
def Obligations.PayloadPassesThrough : Prop :=
  ∀ (i : Instr) (s t : State) (r : Request) (p : Response), s.transaction = some r → i.wf = true → exec i s = .next t →
    t.responses = s.responses ++ [p] →
    (p.result ≠ .insertOk → p.payloadOut = r.payloadIn) ∧
    (∀ c, i = .insert c → ∀ b : Nat, (b : Int) ∉ touched c.order c.startBit c.length →
      p.payloadOut.getLsbD b = r.payloadIn.getLsbD b) ∧
    (∀ b : Nat, i.fields.cap * 8 ≤ b → p.payloadOut.getLsbD b = r.payloadIn.getLsbD b)

/-- R10: the result of an operation is a function of its request alone: whatever came before, two states with the same
transaction in progress get the same reply, and when it is given CORE is as idle as after reset. -/
def Obligations.ReplyDependsOnTheRequestAlone : Prop :=
  (∀ s t : State, s.transaction = t.transaction → s.transaction.isSome = true →
    s.input.head? ≠ some .reset → t.input.head? ≠ some .reset → reply (step s) = reply (step t)) ∧
  (∀ s u : State, s.transaction.isSome = true → step s = .next u → u.transaction = State.reset.transaction)

/-- R54, R19: a command field that an operation ignores, and a request field that it does not read, do not change its
outcome. -/
def Obligations.IgnoredFieldsChangeNothing : Prop :=
  ∀ (c : CmdFields) (s : State) (o : ByteOrder) (g : Bool) (cap start : Nat),
    exec (.extract { c with isSigned := g }) s = exec (.extract c) s ∧
    exec (.insert { c with isSigned := g }) s = exec (.insert c) s ∧
    exec (.tophys { c with order := o, cap := cap, startBit := start }) s = exec (.tophys c) s ∧
    exec (.toraw { c with order := o, cap := cap, startBit := start }) s = exec (.toraw c) s ∧
    (∀ (r : Request) (w : Word32) (a b f d l h : Word64),
      exec (.extract c) { s with transaction := some { r with cmd := w, rawIn := a, physIn := b, factor := f, offset := d, minValue := l, maxValue := h } } =
        exec (.extract c) { s with transaction := some r } ∧
      exec (.insert c) { s with transaction := some { r with cmd := w, physIn := b, factor := f, offset := d, minValue := l, maxValue := h } } =
        exec (.insert c) { s with transaction := some r } ∧
      exec (.tophys c) { s with transaction := some { r with cmd := w, physIn := b } } =
        exec (.tophys c) { s with transaction := some r } ∧
      exec (.toraw c) { s with transaction := some { r with cmd := w, rawIn := a } } =
        exec (.toraw c) { s with transaction := some r })

/-- A step runs the decoded instruction: with a transaction in progress and no reset applied, the step is `exec` of what
`CMD` decodes to, and a word that spells no command is refused (R55, R106 item 1); a placed word is run by the very next
step (the model's way of placing it, assumption 7). -/
def Obligations.StepRunsTheDecodedCommand : Prop :=
  (∀ (s : State) (r : Request) (i : Instr), s.transaction = some r → s.input.head? ≠ some .reset →
    decode r.cmd = .command i → step s = exec i s) ∧
  (∀ (s : State) (r : Request) (e : DecodeError), s.transaction = some r → s.input.head? ≠ some .reset →
    decode r.cmd = .rejected e → step s = .refused (.invalidCommand e)) ∧
  (∀ (s : State) (w : Nat) (i : Instr), decodeTableWord 32 w = some i →
    step (s.withFetchWord 32 w) = exec i (s.withFetchWord 32 w))

/-- R13, R120: what a step does beside running a transaction: a reset abandons the transaction in progress with no
response; an idle CORE takes the next request, or stays idle; a request that comes while a transaction is in progress is
not taken. That a reset which is next comes before the transaction's response is the model's choice (assumption 9); so are the
`wait` input and the taking of a request as a step of its own (assumption 1). -/
def Obligations.HostEventsBetweenOperations : Prop :=
  (∀ (s : State) (rest : List HostEvent), s.input = .reset :: rest →
    step s = .next { transaction := none, input := rest, responses := s.responses }) ∧
  (∀ (s : State) (r : Request) (rest : List HostEvent), s.transaction = none → s.input = .request r :: rest →
    step s = .next { transaction := some r, input := rest, responses := s.responses }) ∧
  (∀ (s : State) (rest : List HostEvent), s.transaction = none → s.input = .wait :: rest →
    step s = .next { transaction := none, input := rest, responses := s.responses }) ∧
  (∀ s : State, s.transaction = none → s.input = [] → step s = .next s) ∧
  (∀ s t : State, s.transaction.isSome = true → s.input.head? ≠ some .reset → step s = .next t → t.input = s.input)

/-- R25: right after reset CORE is idle. That no response can be read then rests on the model's choice that the host's list
of responses is empty in `State.reset` (assumption 3). -/
def Obligations.ResetLeavesCoreIdle : Prop :=
  State.reset.transaction = none ∧ ∀ n, hostReads State.reset n = none

/-- R131: exactly one response for each accepted request, unless reset intervenes: every step that is not a reset keeps
the number of requests to come, in progress and answered. -/
def Obligations.OneResponsePerRequest : Prop :=
  ∀ s t : State, s.input.head? ≠ some .reset → step s = .next t →
    requestsToCome t + inProgress t + t.responses.length = requestsToCome s + inProgress s + s.responses.length

/-- R42, R13: the host's requests are answered in issue order, each as if it were alone: from an idle CORE, with no reset
between. That a request takes two steps, one that takes it and one that answers it, is the model's choice (assumption 1). -/
def Obligations.RequestsAreAnsweredInIssueOrder : Prop :=
  ∀ (rs : List Request) (ps : List Response), List.Forall₂ (fun r p => replyTo r = .answered p) rs ps →
    ∀ s : State, s.transaction = none → s.input = rs.map .request →
      Host.Core.run core (2 * rs.length) s =
        .next { transaction := none, input := [], responses := s.responses ++ ps }

/-- R57, R88: every step keeps every response the host has received legal: no `STATUS` of 3, and every `PHYS_OUT` finite. -/
def Obligations.StepKeepsResponsesLegal : Prop :=
  ∀ s t : State, s.legal → step s = .next t → t.legal

/-- The state after reset meets the invariant of `StepKeepsResponsesLegal`: it holds because the host's list of responses is
empty in `State.reset`, which is the model's choice (assumption 3). -/
def Obligations.ResetIsLegal : Prop :=
  State.reset.legal
end

