-- ==== Sys2Proof/Laws/State.lean ====
section
/-! SUPPORT. The small lemmas of State and of its updates: one per field per update, true by rfl, and one spec lemma per
shared operation of a transaction. -/

namespace Sys2Proof.Machine

@[simp] theorem complete_transaction (s : State) (p : Response) : (s.complete p).transaction = none := rfl

@[simp] theorem complete_input (s : State) (p : Response) : (s.complete p).input = s.input := rfl

@[simp] theorem complete_responses (s : State) (p : Response) : (s.complete p).responses = s.responses ++ [p] := rfl

@[simp] theorem passThrough_payloadOut (r : Request) (x : Result) : (passThrough r x).payloadOut = r.payloadIn := rfl

@[simp] theorem passThrough_result (r : Request) (x : Result) : (passThrough r x).result = x := rfl

@[simp] theorem answer_transaction (s : State) (r : Request) (x : Result) : (s.answer r x).transaction = none := rfl

@[simp] theorem answer_input (s : State) (r : Request) (x : Result) : (s.answer r x).input = s.input := rfl

@[simp] theorem answer_responses (s : State) (r : Request) (x : Result) :
    (s.answer r x).responses = s.responses ++ [⟨r.payloadIn, x⟩] := rfl

/-- The claims' `answer` is the machine's way of ending a transaction that leaves the payload alone. -/
theorem complete_passThrough (s : State) (r : Request) (x : Result) : s.complete (passThrough r x) = s.answer r x := rfl

/-- Two answers to one request are the same next state only when their results are the same. -/
@[simp] theorem answer_inj (s : State) (r : Request) (x y : Result) : s.answer r x = s.answer r y ↔ x = y := by
  simp [State.answer]

@[simp] theorem takeReset_transaction (s : State) : (takeReset s).transaction = none := rfl

@[simp] theorem takeReset_input (s : State) : (takeReset s).input = s.input.tail := rfl

@[simp] theorem takeReset_responses (s : State) : (takeReset s).responses = s.responses := rfl

@[simp] theorem placeCommand_transaction (s : State) (w : Word32) :
    (s.placeCommand w).transaction = some { s.transaction.getD Request.zero with cmd := w } := rfl

@[simp] theorem placeCommand_responses (s : State) (w : Word32) : (s.placeCommand w).responses = s.responses := rfl

@[simp] theorem reset_transaction : State.reset.transaction = none := rfl

@[simp] theorem reset_input : State.reset.input = [] := rfl

@[simp] theorem reset_responses : State.reset.responses = [] := rfl

/-- An operation runs on the request of the transaction in progress. -/
theorem withRequest_some {s : State} {r : Request} (h : s.transaction = some r)
    (k : Request → Host.Outcome State Fault Refusal) : withRequest s k = k r := by
  simp [withRequest, h]

/-- Outside a transaction every operation is turned away by name. -/
theorem withRequest_none {s : State} (h : s.transaction = none)
    (k : Request → Host.Outcome State Fault Refusal) : withRequest s k = .refused .noTransaction := by
  simp [withRequest, h]

/-- Everything reporting a fault does: one response with the fault's code, the payload as it was. -/
theorem raiseFault_eq (s : State) (r : Request) (f : Fault) : raiseFault s r f = .next (s.answer r (.fault f)) := rfl

/-- Reset is applied exactly when it is the next host event. -/
theorem resetApplied_iff (s : State) : resetApplied s = true ↔ s.input.head? = some .reset := by
  unfold resetApplied
  split <;> simp_all

/-- The domain check has three answers: nothing to refuse, or one of rule R108's two reasons. -/
theorem domainRefusal_cases (xs : List F64) (mn mx : F64) :
    (domainRefusal xs mn mx = none ∧ xs.all isFinite = true ∧ flt mx mn = false) ∨
    (domainRefusal xs mn mx = some .minAboveMax ∧ xs.all isFinite = true ∧ flt mx mn = true) ∨
    (domainRefusal xs mn mx = some .nonFiniteOperand ∧ xs.all isFinite = false) := by
  unfold domainRefusal
  split
  · split <;> simp_all
  · simp_all

end Sys2Proof.Machine
end

