-- ==== Sys2Proof/Laws/Exec.lean ====
section
/-! SUPPORT. What each meaning and the step come to on a request: one equation each, which the provers cite instead of
unfolding the meaning. -/

namespace Sys2Proof.Machine

/-- EXTRACT on the request in progress. -/
theorem execExtract_eq {s : State} {r : Request} (h : s.transaction = some r) (c : CmdFields) :
    exec (.extract c) s =
      if geometryOk c.cap c.order c.startBit c.length then
        .next (s.answer r (.extractOk (extractBits ⟨c.cap, r.payloadIn⟩ c.order c.startBit c.length)))
      else .next (s.answer r (.fault .geometryOutOfRange)) := by
  simp only [exec, execExtract, withRequest_some h]
  rfl

/-- INSERT on the request in progress. -/
theorem execInsert_eq {s : State} {r : Request} (h : s.transaction = some r) (c : CmdFields) :
    exec (.insert c) s =
      if geometryOk c.cap c.order c.startBit c.length then
        .next { s with
          transaction := none
          responses := s.responses ++
            [⟨(insertBits ⟨c.cap, r.payloadIn⟩ c.order c.startBit c.length r.rawIn).field, .insertOk⟩] }
      else .next (s.answer r (.fault .geometryOutOfRange)) := by
  simp only [exec, execInsert, withRequest_some h]
  rfl

/-- The converter's domain check finds nothing exactly in the documented domain of TOPHYS. -/
theorem domainRefusal_tophys (r : Request) :
    domainRefusal [r.factor, r.offset, r.minValue, r.maxValue] r.minValue r.maxValue = none ↔ tophysDomain r = true := by
  rcases domainRefusal_cases [r.factor, r.offset, r.minValue, r.maxValue] r.minValue r.maxValue with h | h | h <;>
    simp_all [tophysDomain, and_assoc]

/-- The converter's domain check finds nothing exactly in the documented domain of TORAW. -/
theorem domainRefusal_toraw (r : Request) :
    domainRefusal [r.physIn, r.factor, r.offset, r.minValue, r.maxValue] r.minValue r.maxValue = none ↔
      torawDomain r = true := by
  rcases domainRefusal_cases [r.physIn, r.factor, r.offset, r.minValue, r.maxValue] r.minValue r.maxValue with h | h | h <;>
    simp_all [torawDomain, tophysDomain, and_assoc]

/-- TOPHYS on the request in progress. -/
theorem execTophys_eq {s : State} {r : Request} (h : s.transaction = some r) (c : CmdFields) :
    exec (.tophys c) s =
      if lengthOk c.length then
        match domainRefusal [r.factor, r.offset, r.minValue, r.maxValue] r.minValue r.maxValue with
        | some e => .refused e
        | none =>
          let y := clamp (scaleUp (numeric r.rawIn c.length c.isSigned) r.factor r.offset) r.minValue r.maxValue
          .next (s.answer r (.tophysOk y.1 y.2))
      else .next (s.answer r (.fault .geometryOutOfRange)) := by
  simp only [exec, execTophys, withRequest_some h]
  rfl

/-- TORAW on the request in progress. -/
theorem execToraw_eq {s : State} {r : Request} (h : s.transaction = some r) (c : CmdFields) :
    exec (.toraw c) s =
      if lengthOk c.length then
        match domainRefusal [r.physIn, r.factor, r.offset, r.minValue, r.maxValue] r.minValue r.maxValue with
        | some e => .refused e
        | none =>
          if feq r.factor positiveZero then .next (s.answer r (.fault .scaleDegenerate))
          else
            let x := clamp r.physIn r.minValue r.maxValue
            match quotientToField (scaleDown x.1 r.factor r.offset) (fieldLow c.length c.isSigned)
                (fieldHigh c.length c.isSigned) with
            | some k => .next (s.answer r (.torawOk (encodeField k.1 c.length) (x.2 || k.2)))
            | none => .refused .nanQuotient
      else .next (s.answer r (.fault .geometryOutOfRange)) := by
  simp only [exec, execToraw, withRequest_some h]
  rfl

/-- Everything an operation can do on the request in progress, in any state: it ends the transaction with one response,
which leaves the payload alone unless it is a successful INSERT's, or it is refused for one of three reasons. The response
or the reason depends on the request alone. -/
theorem exec_cases (i : Instr) (r : Request) :
    (∃ p : Response, (p.result ≠ .insertOk → p.payloadOut = r.payloadIn) ∧
      ∀ s : State, s.transaction = some r →
        exec i s = .next { s with transaction := none, responses := s.responses ++ [p] }) ∨
    (∃ e, (e = .nonFiniteOperand ∨ e = .minAboveMax ∨ e = .nanQuotient) ∧
      ∀ s : State, s.transaction = some r → exec i s = .refused e) := by
  cases i with
  | extract c =>
    left
    by_cases g : geometryOk c.cap c.order c.startBit c.length = true
    · exact ⟨passThrough r _, fun _ => rfl, fun s h => by rw [execExtract_eq h, if_pos g]; rfl⟩
    · exact ⟨passThrough r _, fun _ => rfl, fun s h => by rw [execExtract_eq h, if_neg g]; rfl⟩
  | insert c =>
    left
    by_cases g : geometryOk c.cap c.order c.startBit c.length = true
    · exact ⟨⟨_, .insertOk⟩, fun hh => absurd rfl hh, fun s h => by rw [execInsert_eq h, if_pos g]⟩
    · exact ⟨passThrough r _, fun _ => rfl, fun s h => by rw [execInsert_eq h, if_neg g]; rfl⟩
  | tophys c =>
    by_cases g : lengthOk c.length = true
    · rcases domainRefusal_cases [r.factor, r.offset, r.minValue, r.maxValue] r.minValue r.maxValue with d | d | d
      · exact .inl ⟨passThrough r _, fun _ => rfl, fun s h => by rw [execTophys_eq h, if_pos g, d.1]; rfl⟩
      · exact .inr ⟨.minAboveMax, .inr (.inl rfl), fun s h => by rw [execTophys_eq h, if_pos g, d.1]⟩
      · exact .inr ⟨.nonFiniteOperand, .inl rfl, fun s h => by rw [execTophys_eq h, if_pos g, d.1]⟩
    · exact .inl ⟨passThrough r _, fun _ => rfl, fun s h => by rw [execTophys_eq h, if_neg g]; rfl⟩
  | toraw c =>
    by_cases g : lengthOk c.length = true
    · rcases domainRefusal_cases [r.physIn, r.factor, r.offset, r.minValue, r.maxValue] r.minValue r.maxValue with
        d | d | d
      · by_cases z : feq r.factor positiveZero = true
        · refine .inl ⟨passThrough r (.fault .scaleDegenerate), fun _ => rfl, fun s h => ?_⟩
          rw [execToraw_eq h, if_pos g, d.1]
          simp only
          rw [if_pos z]
          rfl
        · cases q : quotientToField (scaleDown (clamp r.physIn r.minValue r.maxValue).1 r.factor r.offset)
              (fieldLow c.length c.isSigned) (fieldHigh c.length c.isSigned) with
          | some k =>
            refine .inl ⟨passThrough r (.torawOk (encodeField k.1 c.length)
              ((clamp r.physIn r.minValue r.maxValue).2 || k.2)), fun _ => rfl, fun s h => ?_⟩
            rw [execToraw_eq h, if_pos g, d.1]
            simp only
            rw [if_neg z, q]
            rfl
          | none =>
            refine .inr ⟨.nanQuotient, .inr (.inr rfl), fun s h => ?_⟩
            rw [execToraw_eq h, if_pos g, d.1]
            simp only
            rw [if_neg z, q]
      · exact .inr ⟨.minAboveMax, .inr (.inl rfl), fun s h => by rw [execToraw_eq h, if_pos g, d.1]⟩
      · exact .inr ⟨.nonFiniteOperand, .inl rfl, fun s h => by rw [execToraw_eq h, if_pos g, d.1]⟩
    · exact .inl ⟨passThrough r _, fun _ => rfl, fun s h => by rw [execToraw_eq h, if_neg g]; rfl⟩

/-- Outside a transaction no operation runs. -/
theorem exec_idle {s : State} (h : s.transaction = none) (i : Instr) : exec i s = .refused .noTransaction := by
  cases i <;> exact withRequest_none h _

/-- The step, case by case: a reset first, then the transaction in progress, then the host's next input. -/
theorem step_eq (s : State) :
    step s =
      if s.input.head? = some .reset then .next (takeReset s)
      else match s.transaction with
        | some r =>
          match decode r.cmd with
          | .command i => exec i s
          | .rejected e => .refused (.invalidCommand e)
        | none => .next (takeInput s) := by
  unfold step
  by_cases h : s.input.head? = some .reset
  · rw [if_pos h, if_pos ((resetApplied_iff s).mpr h)]
  · rw [if_neg h, if_neg (fun h' => h ((resetApplied_iff s).mp h'))]
    rfl

/-- The step with a transaction in progress and no reset applied: the operation that `CMD` spells. -/
theorem step_busy {s : State} {r : Request} (h : s.transaction = some r) (hn : s.input.head? ≠ some .reset) :
    step s =
      match decode r.cmd with
      | .command i => exec i s
      | .rejected e => .refused (.invalidCommand e) := by
  rw [step_eq, if_neg hn]
  simp only [h]

/-- The step of an idle CORE with no reset applied: it takes the host's next input. -/
theorem step_idle {s : State} (h : s.transaction = none) (hn : s.input.head? ≠ some .reset) :
    step s = .next (takeInput s) := by
  rw [step_eq, if_neg hn]
  simp only [h]

end Sys2Proof.Machine
end

