-- ==== Sys2Proof/Laws/Float.lean ====
section
/-! SUPPORT. What the binary64 building blocks do: the format, and rounding a ratio of naturals to it. -/

namespace Sys2Proof.Machine

@[simp] theorem pow2_eq (k : Nat) : pow2 k = 2 ^ k := by
  rw [pow2, ← pow_mul, ← pow_add]
  congr 1
  omega

/-- Dropping whole pieces never drops more than `q` has. -/
theorem two_pow_limbBits_le (fuel q : Nat) (hq : 0 < q) : 2 ^ limbBits fuel q ≤ q := by
  induction fuel generalizing q with
  | zero => simpa [limbBits] using Nat.one_le_iff_ne_zero.mpr (by omega)
  | succ f ih =>
    unfold limbBits
    split
    · rw [pow_zero]
      exact hq
    · rename_i hlt
      have h := ih (q / 2 ^ 128) (Nat.div_pos (Nat.le_of_not_lt hlt) (by positivity))
      rw [pow_add]
      calc 2 ^ 128 * 2 ^ limbBits f (q / 2 ^ 128) ≤ 2 ^ 128 * (q / 2 ^ 128) := Nat.mul_le_mul_left _ h
        _ ≤ q := Nat.mul_div_le q _

/-- The piecewise logarithm is the logarithm. -/
theorem floorLog2_eq (q : Nat) : floorLog2 q = Nat.log2 q := by
  unfold floorLog2
  rw [pow2_eq]
  rcases Nat.eq_zero_or_pos q with h0 | hq
  · subst h0
    simp [limbBits]
  · generalize hk : limbBits 32 q = k
    have hle : 2 ^ k ≤ q := hk ▸ two_pow_limbBits_le 32 q hq
    have hne : q / 2 ^ k ≠ 0 := by
      have := Nat.div_pos hle (by positivity)
      omega
    have h1 := (Nat.le_log2 hne).mp (le_refl (Nat.log2 (q / 2 ^ k)))
    have h2 := (Nat.log2_lt hne).mp (Nat.lt_succ_self (Nat.log2 (q / 2 ^ k)))
    symm
    rw [Nat.log2_eq_iff (by omega)]
    rw [Nat.le_div_iff_mul_le (by positivity)] at h1
    rw [Nat.div_lt_iff_lt_mul (by positivity)] at h2
    constructor
    · rw [pow_add, mul_comm]
      exact h1
    · calc q < 2 ^ (q / 2 ^ k).log2.succ * 2 ^ k := h2
        _ = 2 ^ (k + (q / 2 ^ k).log2 + 1) := by rw [← pow_add]; congr 1; omega

/-- Nothing is dropped from a significand below 2^53; else exactly 53 bits are kept. -/
theorem excessBits_spec (q : Nat) :
    (excessBits q = 0 ∧ q < 2 ^ 53) ∨
    (1 ≤ excessBits q ∧ 2 ^ 52 * 2 ^ excessBits q ≤ q ∧ q < 2 ^ 53 * 2 ^ excessBits q) := by
  unfold excessBits
  split
  · exact .inl ⟨rfl, by assumption⟩
  · rename_i h
    right
    rw [floorLog2_eq]
    have hne : q ≠ 0 := by
      intro h0
      simp [h0] at h
    have h53 : 53 ≤ Nat.log2 q := (Nat.le_log2 hne).mpr (by omega)
    have h1 := (Nat.le_log2 hne).mp (le_refl (Nat.log2 q))
    have h2 := (Nat.log2_lt hne).mp (Nat.lt_succ_self (Nat.log2 q))
    refine ⟨by omega, ?_, ?_⟩
    · rw [← pow_add]
      calc 2 ^ (52 + (q.log2 - 52)) = 2 ^ q.log2 := by congr 1; omega
        _ ≤ q := h1
    · rw [← pow_add]
      calc q < 2 ^ q.log2.succ := h2
        _ = 2 ^ (53 + (q.log2 - 52)) := by congr 1; omega

/-- Where `roundHalfEven` ends up: at the integer below or above, whichever is nearer; halfway, at the even one. -/
theorem roundHalfEven_spec (num den : Nat) (hd : 0 < den) :
    (2 * (num % den) < den ∧ roundHalfEven num den = num / den) ∨
    (den < 2 * (num % den) ∧ roundHalfEven num den = num / den + 1) ∨
    (2 * (num % den) = den ∧ roundHalfEven num den % 2 = 0 ∧
      (roundHalfEven num den = num / den ∨ roundHalfEven num den = num / den + 1)) := by
  have hr := Nat.mod_lt num hd
  unfold roundHalfEven
  simp only
  split
  · exact .inl ⟨by assumption, rfl⟩
  · split
    · exact .inr (.inl ⟨by assumption, rfl⟩)
    · refine .inr (.inr ⟨by omega, by omega, by omega⟩)

/-- `roundHalfEven` is a nearest integer to the ratio: no integer is nearer, and another as near only when it is even. -/
theorem roundHalfEven_nearest (num den : Nat) (hd : 0 < den) (j : Nat) :
    |(roundHalfEven num den * den : ℤ) - num| ≤ |(j * den : ℤ) - num| ∧
    (j ≠ roundHalfEven num den → |(j * den : ℤ) - num| = |(roundHalfEven num den * den : ℤ) - num| →
      roundHalfEven num den % 2 = 0) := by
  have hr := Nat.mod_lt num hd
  have hnum : (num : ℤ) = (num / den : Nat) * den + (num % den : Nat) := by
    have := Nat.div_add_mod' num den
    exact_mod_cast this.symm
  rw [hnum]
  generalize hq : num / den = q
  generalize hrr : num % den = r at *
  have hdz : (0 : ℤ) < den := by exact_mod_cast hd
  have key : ∀ z : ℤ, (z * den : ℤ) - ((q : ℤ) * den + r) = (z - q) * den - r := fun z => by ring
  have far : ∀ z : ℤ, z ≤ q ∧ (r : ℤ) ≤ |(z * den : ℤ) - ((q : ℤ) * den + r)| ∧
        (|(z * den : ℤ) - ((q : ℤ) * den + r)| = r → z = q) ∨
      q + 1 ≤ z ∧ (den : ℤ) - r ≤ |(z * den : ℤ) - ((q : ℤ) * den + r)| ∧
        (|(z * den : ℤ) - ((q : ℤ) * den + r)| = den - r → z = q + 1) := by
    intro z
    rw [key]
    rcases lt_or_ge (q : ℤ) z with h | h
    · right
      have h1 : (1 : ℤ) * den ≤ (z - q) * den := Int.mul_le_mul_of_nonneg_right (by omega) hdz.le
      have h3 : |(z - q) * den - r| = (z - q) * den - r := abs_of_nonneg (by omega)
      refine ⟨by omega, by omega, fun e => ?_⟩
      rw [h3] at e
      have h4 : (z - q) * den = 1 * den := by omega
      have := Int.eq_of_mul_eq_mul_right (ne_of_gt hdz) h4
      omega
    · left
      have h1 : (z - q) * den ≤ 0 := Int.mul_nonpos_of_nonpos_of_nonneg (by omega) hdz.le
      have h3 : |(z - q) * den - r| = r - (z - q) * den := by
        rw [abs_of_nonpos (by omega)]
        ring
      refine ⟨h, by omega, fun e => ?_⟩
      rw [h3] at e
      have h4 : (z - q) * den = 0 * den := by omega
      have := Int.eq_of_mul_eq_mul_right (ne_of_gt hdz) h4
      omega
  have near0 : |((q : ℤ) * den : ℤ) - ((q : ℤ) * den + r)| = r := by
    rw [key]
    simp
  have near1 : |(((q + 1 : Nat) : ℤ) * den : ℤ) - ((q : ℤ) * den + r)| = den - r := by
    rw [key]
    push_cast
    have e : ((q : ℤ) + 1 - q) * den - r = den - r := by ring
    rw [e, abs_of_nonneg (by omega)]
  rcases roundHalfEven_spec num den hd with ⟨h1, h2⟩ | ⟨h1, h2⟩ | ⟨h1, h2, h3⟩
  · rw [hrr] at h1
    rw [h2, hq, near0]
    refine ⟨?_, fun hne e => absurd e ?_⟩
    · rcases far j with ⟨_, h, _⟩ | ⟨_, h, _⟩ <;> omega
    · rcases far j with ⟨_, h, h'⟩ | ⟨_, h, _⟩
      · intro e
        have := h' e
        omega
      · omega
  · rw [hrr] at h1
    rw [h2, hq, near1]
    refine ⟨?_, fun hne e => absurd e ?_⟩
    · rcases far j with ⟨_, h, _⟩ | ⟨_, h, _⟩ <;> omega
    · rcases far j with ⟨_, h, _⟩ | ⟨_, h, h'⟩
      · omega
      · intro e
        have := h' e
        omega
  · rw [hrr] at h1
    refine ⟨?_, fun _ _ => h2⟩
    rw [hq] at h3
    rcases h3 with h3 | h3
    · rw [h3, near0]
      rcases far j with ⟨_, h, _⟩ | ⟨_, h, _⟩ <;> omega
    · rw [h3, near1]
      rcases far j with ⟨_, h, _⟩ | ⟨_, h, _⟩ <;> omega

/-- The magnitude that exponent and fraction fields `b` stand for, in units of 2^-1074. -/
def bitsMag (b : Nat) : Nat :=
  floatMag (b / 2 ^ 52) (b % 2 ^ 52)

/-- A significand `m` with `k` places dropped reads back as `m * 2^k`, subnormals and a carry into the exponent included. -/
theorem bitsMag_add (k m : Nat) (hm : m ≤ 2 ^ 53) (hk : k = 0 ∨ 2 ^ 52 ≤ m) : bitsMag (k * 2 ^ 52 + m) = m * 2 ^ k := by
  unfold bitsMag floatMag
  rw [pow2_eq]
  rcases Nat.lt_or_ge m (2 ^ 52) with h1 | h1
  · have hk0 : k = 0 := by omega
    subst hk0
    have e1 : (0 * 2 ^ 52 + m) / 2 ^ 52 = 0 := by omega
    have e2 : (0 * 2 ^ 52 + m) % 2 ^ 52 = m := by omega
    rw [e1, e2]
    simp
  · rcases Nat.lt_or_ge m (2 ^ 53) with h2 | h2
    · have e1 : (k * 2 ^ 52 + m) / 2 ^ 52 = k + 1 := by omega
      have e2 : 2 ^ 52 + (k * 2 ^ 52 + m) % 2 ^ 52 = m := by omega
      rw [e1, e2]
      simp
    · have h3 : m = 2 ^ 53 := by omega
      subst h3
      have e1 : (k * 2 ^ 52 + 2 ^ 53) / 2 ^ 52 = k + 2 := by omega
      have e2 : (k * 2 ^ 52 + 2 ^ 53) % 2 ^ 52 = 0 := by omega
      rw [e1, e2, if_neg (by omega)]
      have e3 : k + 2 - 1 = k + 1 := by omega
      rw [e3, pow_succ]
      ring

/-- Every magnitude of the format is a whole number of units of `2^k`, or lies below `2^52` of them. -/
theorem bitsMag_coarse (b k : Nat) : (∃ j, bitsMag b = j * 2 ^ k) ∨ (1 ≤ k ∧ bitsMag b < 2 ^ 52 * 2 ^ k) := by
  unfold bitsMag floatMag
  rw [pow2_eq]
  have hf : b % 2 ^ 52 < 2 ^ 52 := Nat.mod_lt _ (by positivity)
  generalize b % 2 ^ 52 = f at *
  generalize b / 2 ^ 52 = e at *
  rcases Nat.eq_zero_or_pos k with hk | hk
  · exact .inl ⟨_, by simp [hk]; rfl⟩
  · split
    · right
      refine ⟨hk, lt_of_lt_of_le hf ?_⟩
      exact Nat.le_mul_of_pos_right _ (by positivity)
    · rcases Nat.lt_or_ge (e - 1) k with h | h
      · right
        refine ⟨hk, ?_⟩
        have h1 : 2 ^ 52 + f < 2 ^ 53 := by omega
        have h2 : 2 ^ (e - 1) ≤ 2 ^ (k - 1) := Nat.pow_le_pow_right (by norm_num) (by omega)
        calc (2 ^ 52 + f) * 2 ^ (e - 1) ≤ (2 ^ 52 + f) * 2 ^ (k - 1) := Nat.mul_le_mul_left _ h2
          _ < 2 ^ 53 * 2 ^ (k - 1) := Nat.mul_lt_mul_of_pos_right h1 (by positivity)
          _ = 2 ^ 52 * 2 ^ k := by
            rw [← pow_add, ← pow_add]
            congr 1
            omega
      · left
        refine ⟨(2 ^ 52 + f) * 2 ^ (e - 1 - k), ?_⟩
        rw [mul_assoc, ← pow_add]
        congr 2
        omega

theorem roundMag_le_infinity (num den : Nat) : roundMag num den ≤ infinityBits :=
  Nat.min_le_right _ _

/-- The significand and the places dropped that `roundMag` chooses, and what they stand for. -/
theorem roundMag_significand (num den : Nat) (hd : 0 < den) :
    ∃ k m, k = excessBits (num / den) ∧ m = roundHalfEven num (den * 2 ^ k) ∧ m ≤ 2 ^ 53 ∧ (k = 0 ∨ 2 ^ 52 ≤ m) ∧
      roundMag num den = Nat.min (k * 2 ^ 52 + m) infinityBits ∧ bitsMag (k * 2 ^ 52 + m) = m * 2 ^ k ∧
      (1 ≤ k → 2 ^ 52 * (den * 2 ^ k) ≤ num) ∧ num < 2 ^ 53 * (den * 2 ^ k) := by
  refine ⟨excessBits (num / den), _, rfl, rfl, ?_⟩
  generalize hk : excessBits (num / den) = k
  have hU : 0 < den * 2 ^ k := by positivity
  have hdiv : num / (den * 2 ^ k) = num / den / 2 ^ k := by rw [Nat.div_div_eq_div_mul]
  have hlow : 1 ≤ k → 2 ^ 52 ≤ num / (den * 2 ^ k) := by
    intro h1
    rw [hdiv, Nat.le_div_iff_mul_le (by positivity)]
    rcases excessBits_spec (num / den) with h | h
    · omega
    · rw [hk] at h
      exact h.2.1
  have hhigh : num / (den * 2 ^ k) < 2 ^ 53 := by
    rw [hdiv, Nat.div_lt_iff_lt_mul (by positivity)]
    rcases excessBits_spec (num / den) with h | h
    · rw [hk] at h
      simpa [h.1] using h.2
    · rw [hk] at h
      exact h.2.2
  have hround : num / (den * 2 ^ k) ≤ roundHalfEven num (den * 2 ^ k) ∧
      roundHalfEven num (den * 2 ^ k) ≤ num / (den * 2 ^ k) + 1 := by
    rcases roundHalfEven_spec num (den * 2 ^ k) hU with h | h | h <;> omega
  have hm : roundHalfEven num (den * 2 ^ k) ≤ 2 ^ 53 := by omega
  have hk0 : k = 0 ∨ 2 ^ 52 ≤ roundHalfEven num (den * 2 ^ k) := by
    rcases Nat.eq_zero_or_pos k with h | h
    · exact .inl h
    · exact .inr (le_trans (hlow h) hround.1)
  refine ⟨hm, hk0, ?_, bitsMag_add k _ hm hk0, fun h => ?_, ?_⟩
  · simp only [roundMag, hk, pow2_eq]
  · exact (Nat.le_div_iff_mul_le hU).mp (hlow h)
  · exact (Nat.div_lt_iff_lt_mul hU).mp hhigh

/-! ### The format -/

theorem floatSign_packFloat (s : Bool) (b : Nat) (hb : b < 2 ^ 63) : floatSign (packFloat s b) = s := by
  unfold floatSign packFloat
  rw [BitVec.getLsbD_ofNat]
  cases s
  · simp [Nat.testBit_lt_two_pow hb]
  · rw [Bool.toNat_true, one_mul, Nat.testBit_two_pow_add_eq, Nat.testBit_lt_two_pow hb]
    rfl

theorem floatExponent_packFloat (s : Bool) (b : Nat) (hb : b < 2 ^ 63) : floatExponent (packFloat s b) = b / 2 ^ 52 := by
  unfold floatExponent packFloat
  rw [BitVec.toNat_ofNat]
  cases s
  · simp only [Bool.toNat_false]
    omega
  · simp only [Bool.toNat_true]
    omega

theorem floatFraction_packFloat (s : Bool) (b : Nat) : floatFraction (packFloat s b) = b % 2 ^ 52 := by
  unfold floatFraction packFloat
  rw [BitVec.toNat_ofNat]
  cases s
  · simp only [Bool.toNat_false]
    omega
  · simp only [Bool.toNat_true]
    omega

/-- A pattern below the infinity is finite, with the magnitude its fields stand for. -/
theorem classify_packFloat_finite (s : Bool) (b : Nat) (hb : b < infinityBits) :
    classify (packFloat s b) = .finite s (bitsMag b) := by
  have h63 : b < 2 ^ 63 := by unfold infinityBits at hb; omega
  have he : b / 2 ^ 52 ≠ 2047 := by unfold infinityBits at hb; omega
  unfold classify
  rw [floatExponent_packFloat _ _ h63, floatFraction_packFloat, floatSign_packFloat _ _ h63, if_neg he]
  rfl

theorem classify_packFloat_infinity (s : Bool) : classify (packFloat s infinityBits) = .infinite s := by
  cases s <;> decide

/-- What rounding a ratio to the format gives: a finite value below the infinity, else the infinity. -/
theorem classify_roundMag (s : Bool) (num den : Nat) :
    classify (packFloat s (roundMag num den)) =
      if roundMag num den < infinityBits then .finite s (bitsMag (roundMag num den)) else .infinite s := by
  split
  · exact classify_packFloat_finite _ _ (by assumption)
  · have h := roundMag_le_infinity num den
    have h2 : roundMag num den = infinityBits := by omega
    rw [h2, classify_packFloat_infinity]

/-- The two fields of a pattern as one number. -/
def fieldsNat (x : F64) : Nat :=
  x.toNat % 2 ^ 63

/-- Every pattern is the packing of its own sign and fields. -/
theorem packFloat_fields (x : F64) : packFloat (floatSign x) (fieldsNat x) = x := by
  unfold packFloat floatSign fieldsNat
  apply BitVec.eq_of_toNat_eq
  rw [BitVec.toNat_ofNat]
  have hx := x.isLt
  have hb : x.getLsbD 63 = decide (2 ^ 63 ≤ x.toNat) := by
    rw [← BitVec.testBit_toNat]
    by_cases h : 2 ^ 63 ≤ x.toNat
    · have e : x.toNat = 2 ^ 63 + (x.toNat - 2 ^ 63) := by omega
      have hlt : x.toNat - 2 ^ 63 < 2 ^ 63 := by omega
      rw [e, Nat.testBit_two_pow_add_eq, Nat.testBit_lt_two_pow hlt]
      simp
    · rw [Nat.testBit_lt_two_pow (by omega), decide_eq_false h]
  rw [hb]
  by_cases h : 2 ^ 63 ≤ x.toNat
  · rw [decide_eq_true h, Bool.toNat_true]
    omega
  · rw [decide_eq_false h, Bool.toNat_false]
    omega

theorem fieldsNat_lt (x : F64) : fieldsNat x < 2 ^ 63 := Nat.mod_lt _ (by positivity)

/-- A pattern is finite exactly when its fields lie below the infinity. -/
theorem isFinite_iff_fields (x : F64) : isFinite x = true ↔ fieldsNat x < infinityBits := by
  unfold isFinite floatExponent fieldsNat infinityBits
  simp only [ne_eq, decide_not, Bool.not_eq_eq_eq_not, Bool.not_true, decide_eq_false_iff_not]
  omega

/-- A finite pattern's class is its sign and the magnitude of its fields. -/
theorem classify_of_isFinite {x : F64} (h : isFinite x = true) :
    classify x = .finite (floatSign x) (bitsMag (fieldsNat x)) := by
  conv_lhs => rw [← packFloat_fields x]
  exact classify_packFloat_finite _ _ ((isFinite_iff_fields x).mp h)

theorem isFinite_of_classify {x : F64} {s : Bool} {m : Nat} (h : classify x = .finite s m) : isFinite x = true := by
  unfold classify at h
  unfold isFinite
  split at h
  · split at h <;> simp at h
  · simpa

theorem not_isFinite_of_infinite {x : F64} {s : Bool} (h : classify x = .infinite s) : isFinite x = false := by
  by_contra hf
  rw [Bool.not_eq_false] at hf
  rw [classify_of_isFinite hf] at h
  cases h

theorem floatSign_of_infinite {x : F64} {s : Bool} (h : classify x = .infinite s) : floatSign x = s := by
  unfold classify at h
  split at h
  · split at h
    · exact FloatClass.infinite.inj h
    · cases h
  · cases h

/-- Flipping the sign flips the sign and keeps the rest. -/
theorem classify_fneg (x : F64) :
    classify (fneg x) = match classify x with
      | .nan => .nan
      | .infinite s => .infinite !s
      | .finite s m => .finite (!s) m := by
  have hf : fieldsNat (fneg x) = fieldsNat x := by
    unfold fieldsNat fneg
    rw [BitVec.toNat_xor, BitVec.toNat_ofNat]
    apply Nat.eq_of_testBit_eq
    intro i
    rw [Nat.testBit_mod_two_pow, Nat.testBit_mod_two_pow, Nat.testBit_xor]
    by_cases hi : i < 63
    · have : Nat.testBit (2 ^ 63 % 2 ^ 64) i = false := by
        rw [Nat.mod_eq_of_lt (by norm_num), Nat.testBit_two_pow]
        simp
        omega
      rw [this, Bool.xor_false]
    · simp [hi]
  have hs : floatSign (fneg x) = !floatSign x := by
    unfold floatSign fneg
    rw [BitVec.getLsbD_xor]
    have : (BitVec.ofNat 64 (2 ^ 63)).getLsbD 63 = true := by decide
    rw [this]
    simp
  have he : floatExponent (fneg x) = floatExponent x := by
    unfold floatExponent
    unfold fieldsNat at hf
    omega
  have hr : floatFraction (fneg x) = floatFraction x := by
    unfold floatFraction
    unfold fieldsNat at hf
    omega
  unfold classify
  rw [he, hr, hs]
  split
  · split <;> rfl
  · rfl

end Sys2Proof.Machine
end

