-- ==== Sys2Proof/Laws/Payload.lean ====
section
/-! SUPPORT. What the payload's bit accessors and the two loops of the Bit Codec do, bit by bit. -/

namespace Sys2Proof.Machine

/-- A written bit reads as written; every other bit as before. -/
theorem writeBit_getLsbD {n : Nat} (w : BitVec n) (d : Nat) (v : Bool) (j : Nat) (hd : d < n) :
    (writeBit w d v).getLsbD j = if j = d then v else w.getLsbD j := by
  unfold writeBit
  by_cases hj : j = d
  · subst hj
    cases v <;> simp [hd]
  · have hne : ¬ d = j := fun h => hj h.symm
    cases v
    · simp only [Bool.false_eq_true, ↓reduceIte, BitVec.getLsbD_and, BitVec.getLsbD_not, BitVec.getLsbD_twoPow, hj, hne,
        decide_false, Bool.and_false, Bool.not_false, Bool.and_true]
      by_cases hw : j < n
      · simp [hw]
      · simp [hw, BitVec.getLsbD_of_ge w j (by omega)]
    · simp [hj, hne, BitVec.getLsbD_twoPow]

/-- Rule R32's packing: the payload bit with linear index `b` is bit `b` of the 64-bit field. -/
theorem pBit_eq_getLsbD (p : Payload) (b : Nat) : pBit p b = p.field.getLsbD b := by
  have hb : b % 8 < 8 := Nat.mod_lt _ (by decide)
  have hs : 8 * (b / 8) + b % 8 = b := Nat.div_add_mod b 8
  simp [pBit, payloadByte, hb, hs]

@[simp] theorem pSetBit_cap (p : Payload) (b : Nat) (v : Bool) : (pSetBit p b v).cap = p.cap := rfl

/-- A byte written into the field stands at its place and nowhere else. -/
theorem setPayloadByte_getLsbD (p : Payload) (k : Nat) (v : Byte) (j : Nat) (hk : k < 8) :
    (setPayloadByte p k v).field.getLsbD j =
      if 8 * k ≤ j ∧ j < 8 * k + 8 then v.getLsbD (j - 8 * k) else p.field.getLsbD j := by
  have h255 : ∀ m, (BitVec.ofNat 64 255).getLsbD m = decide (m < 8) := by
    intro m
    by_cases hm : m < 64
    · have : ∀ m : Fin 64, (BitVec.ofNat 64 255).getLsbD m.val = decide (m.val < 8) := by decide
      exact this ⟨m, hm⟩
    · rw [BitVec.getLsbD_of_ge _ _ (by omega)]
      simp
      omega
  unfold setPayloadByte
  simp only [BitVec.getLsbD_or, BitVec.getLsbD_and, BitVec.getLsbD_not, BitVec.getLsbD_shiftLeft, h255,
    BitVec.getLsbD_setWidth]
  by_cases h64 : j < 64
  · by_cases h1 : 8 * k ≤ j
    · by_cases h2 : j < 8 * k + 8
      · have : j - 8 * k < 8 := by omega
        have h3 : j - 8 * k < 64 := by omega
        have h7 : ¬ j < 8 * k := by omega
        simp [h64, h1, h2, h7, this, h3]
      · have h4 : ¬ j - 8 * k < 8 := by omega
        simp [h64, h1, h2, h4, BitVec.getLsbD_of_ge v (j - 8 * k) (by omega)]
    · have h5 : j < 8 * k := by omega
      simp [h64, h1, h5]
  · have h6 : ¬ j < 8 * k + 8 := by omega
    simp [h64, h6, BitVec.getLsbD_of_ge p.field j (by omega)]

/-- `PSetBit` on an index below 64 (R31): that bit reads as written, every other bit as before. -/
theorem pSetBit_getLsbD (p : Payload) (b : Nat) (v : Bool) (j : Nat) (hb : b < 64) :
    (pSetBit p b v).field.getLsbD j = if j = b then v else p.field.getLsbD j := by
  have hm : b % 8 < 8 := Nat.mod_lt _ (by decide)
  have hs : 8 * (b / 8) + b % 8 = b := Nat.div_add_mod b 8
  unfold pSetBit
  rw [setPayloadByte_getLsbD p _ _ j (by omega)]
  by_cases hj : j = b
  · subst hj
    have h1 : 8 * (j / 8) ≤ j ∧ j < 8 * (j / 8) + 8 := by omega
    rw [if_pos h1, writeBit_getLsbD _ _ _ _ hm, if_pos (by omega), if_pos rfl]
  · rw [if_neg hj]
    by_cases h1 : 8 * (b / 8) ≤ j ∧ j < 8 * (b / 8) + 8
    · rw [if_pos h1, writeBit_getLsbD _ _ _ _ hm, if_neg (by omega)]
      have h2 : j - 8 * (b / 8) < 8 := by omega
      have h3 : 8 * (b / 8) + (j - 8 * (b / 8)) = j := by omega
      simp [payloadByte, h2, h3]
    · rw [if_neg h1]

/-- An index is touched exactly when some signal bit maps to it (R35). -/
theorem mem_touched {o : ByteOrder} {s n : Nat} {b : Int} : b ∈ touched o s n ↔ ∃ i < n, srcIndex o s i = b := by
  simp [touched]

/-- The bounds check says what rule R35 says: a legal length, and every touched index inside the payload. -/
theorem geometryOk_iff {cap s n : Nat} {o : ByteOrder} :
    geometryOk cap o s n = true ↔
      1 ≤ n ∧ n ≤ 64 ∧ ∀ i < n, 0 ≤ srcIndex o s i ∧ srcIndex o s i < (cap * 8 : Nat) := by
  simp [geometryOk, lengthOk, touched, and_assoc]

/-- `src_index` is injective in i (R39). -/
theorem srcIndex_injective {o : ByteOrder} {s i j : Nat} (h : srcIndex o s i = srcIndex o s j) : i = j := by
  cases o <;> simp [srcIndex] at h <;> omega

/-- A loop that writes bit `g i` of a word for i = 0, 1, ..., n-1: a bit that is some `g i` reads as written there, any
other bit as at the start, provided that `g` is injective on the range and in bounds. -/
theorem foldl_writeBit {w : Nat} (g : Nat → Nat) (f : Nat → Bool) (n : Nat) (init : BitVec w)
    (hg : ∀ i < n, g i < w) (hinj : ∀ i < n, ∀ j < n, g i = g j → i = j) :
    (∀ i < n, ((List.range n).foldl (fun r i => writeBit r (g i) (f i)) init).getLsbD (g i) = f i) ∧
    (∀ b, (∀ i < n, g i ≠ b) →
      ((List.range n).foldl (fun r i => writeBit r (g i) (f i)) init).getLsbD b = init.getLsbD b) := by
  induction n with
  | zero => simp
  | succ m ih =>
    obtain ⟨ih1, ih2⟩ := ih (fun i hi => hg i (by omega)) (fun i hi j hj => hinj i (by omega) j (by omega))
    simp only [List.range_succ, List.foldl_append, List.foldl_cons, List.foldl_nil]
    constructor
    · intro i hi
      rw [writeBit_getLsbD _ _ _ _ (hg m (by omega))]
      by_cases h : i = m
      · simp [h]
      · have hne : g i ≠ g m := fun e => h (hinj i hi m (by omega) e)
        rw [if_neg hne]
        exact ih1 i (by omega)
    · intro b hb
      rw [writeBit_getLsbD _ _ _ _ (hg m (by omega)), if_neg (fun e => hb m (by omega) e.symm)]
      exact ih2 b (fun i hi => hb i (by omega))

/-- The same for a loop of `PSetBit`. -/
theorem foldl_pSetBit (g : Nat → Nat) (f : Nat → Bool) (n : Nat) (init : Payload)
    (hg : ∀ i < n, g i < 64) (hinj : ∀ i < n, ∀ j < n, g i = g j → i = j) :
    (∀ i < n, ((List.range n).foldl (fun q i => pSetBit q (g i) (f i)) init).field.getLsbD (g i) = f i) ∧
    (∀ b, (∀ i < n, g i ≠ b) →
      ((List.range n).foldl (fun q i => pSetBit q (g i) (f i)) init).field.getLsbD b = init.field.getLsbD b) := by
  induction n with
  | zero => simp
  | succ m ih =>
    obtain ⟨ih1, ih2⟩ := ih (fun i hi => hg i (by omega)) (fun i hi j hj => hinj i (by omega) j (by omega))
    simp only [List.range_succ, List.foldl_append, List.foldl_cons, List.foldl_nil]
    constructor
    · intro i hi
      rw [pSetBit_getLsbD _ _ _ _ (hg m (by omega))]
      by_cases h : i = m
      · simp [h]
      · have hne : g i ≠ g m := fun e => h (hinj i hi m (by omega) e)
        rw [if_neg hne]
        exact ih1 i (by omega)
    · intro b hb
      rw [pSetBit_getLsbD _ _ _ _ (hg m (by omega)), if_neg (fun e => hb m (by omega) e.symm)]
      exact ih2 b (fun i hi => hb i (by omega))

/-- A raw value's bit for each signal bit lies below `n` (R33). -/
theorem valueBit_lt {o : ByteOrder} {n i : Nat} (hi : i < n) : valueBit o n i < n := by
  cases o <;> simp [valueBit] <;> omega

/-- `value_bit` is injective on the signal's bits. -/
theorem valueBit_injective {o : ByteOrder} {n i j : Nat} (hi : i < n) (hj : j < n)
    (h : valueBit o n i = valueBit o n j) : i = j := by
  cases o <;> simp [valueBit] at h <;> omega

/-- Every raw bit below `n` is some signal bit's. -/
theorem exists_valueBit {o : ByteOrder} {n j : Nat} (hj : j < n) : ∃ i < n, valueBit o n i = j := by
  cases o
  · exact ⟨j, hj, rfl⟩
  · exact ⟨n - 1 - j, by omega, by simp [valueBit]; omega⟩

/-- All that EXTRACT's loop does: raw bit `value_bit(i)` is the payload bit `src_index(i)`; raw bits at `n` and above are
zero. -/
theorem extractBits_spec {cap s n : Nat} {o : ByteOrder} (w : Word64) (hn : n ≤ 64) :
    (∀ i < n, (extractBits ⟨cap, w⟩ o s n).getLsbD (valueBit o n i) = w.getLsbD (srcIndex o s i).toNat) ∧
    (∀ j, n ≤ j → (extractBits ⟨cap, w⟩ o s n).getLsbD j = false) := by
  have h := foldl_writeBit (w := 64) (valueBit o n) (fun i => pBit ⟨cap, w⟩ (srcIndex o s i).toNat) n 0
    (fun i hi => by have := valueBit_lt (o := o) hi; omega) (fun i hi j hj => valueBit_injective hi hj)
  constructor
  · intro i hi
    have h1 := h.1 i hi
    rw [pBit_eq_getLsbD] at h1
    exact h1
  · intro j hj
    have h2 := h.2 j (fun i hi e => by have := valueBit_lt (o := o) hi; omega)
    simpa [extractBits] using h2

/-- All that INSERT's loop does, with a legal geometry: payload bit `src_index(i)` is the value's bit `value_bit(i)`; every
bit that is not touched is as before. -/
theorem insertBits_spec {cap s n : Nat} {o : ByteOrder} (w v : Word64) (hcap : cap ≤ 8)
    (h : geometryOk cap o s n = true) :
    (∀ i < n, (insertBits ⟨cap, w⟩ o s n v).field.getLsbD (srcIndex o s i).toNat = v.getLsbD (valueBit o n i)) ∧
    (∀ b : Nat, (b : Int) ∉ touched o s n → (insertBits ⟨cap, w⟩ o s n v).field.getLsbD b = w.getLsbD b) := by
  obtain ⟨_, _, hb⟩ := geometryOk_iff.mp h
  have hf := foldl_pSetBit (fun i => (srcIndex o s i).toNat) (fun i => v.getLsbD (valueBit o n i)) n ⟨cap, w⟩
    (fun i hi => by have := hb i hi; omega)
    (fun i hi j hj e => by
      have h1 := hb i hi
      have h2 := hb j hj
      exact srcIndex_injective (o := o) (s := s) (by omega))
  refine ⟨fun i hi => hf.1 i hi, fun b hbt => hf.2 b fun i hi e => hbt ?_⟩
  have h1 := hb i hi
  exact mem_touched.mpr ⟨i, hi, by omega⟩

end Sys2Proof.Machine
end

