-- ==== Sys2Proof/Laws/PerInstr.lean ====
section
/-! SUPPORT. Facts about each command as syntax, one lemma per constructor of `Instr`. -/

namespace Sys2Proof.Laws.TableMatch

open Sys2Proof

/-- The row of rule R52 for an instruction: its well-formed words carry its `OP` in bits 1:0 and zeros in bits 15:14 and
31:23. -/
def Statement (i : Instr) : Prop :=
  i.wf = true → (encode i).toNat % 4 = i.op ∧ (encode i).toNat / 2 ^ 14 % 4 = 0 ∧ (encode i).toNat / 2 ^ 23 = 0

theorem extract (c : CmdFields) : Statement (.extract c) := by
  intro h
  simp only [Instr.wf, CmdFields.fits, CmdFields.capLegal, Bool.and_eq_true, decide_eq_true_eq] at h
  cases c with | mk o g cap s n => cases o <;> cases g <;> simp [encode, Instr.op, Instr.fields, bitOfOrder] at * <;> omega

theorem insert (c : CmdFields) : Statement (.insert c) := by
  intro h
  simp only [Instr.wf, CmdFields.fits, CmdFields.capLegal, Bool.and_eq_true, decide_eq_true_eq] at h
  cases c with | mk o g cap s n => cases o <;> cases g <;> simp [encode, Instr.op, Instr.fields, bitOfOrder] at * <;> omega

theorem tophys (c : CmdFields) : Statement (.tophys c) := by
  intro h
  simp only [Instr.wf, CmdFields.fits, Bool.and_eq_true, decide_eq_true_eq] at h
  cases c with | mk o g cap s n => cases o <;> cases g <;> simp [encode, Instr.op, Instr.fields, bitOfOrder] at * <;> omega

theorem toraw (c : CmdFields) : Statement (.toraw c) := by
  intro h
  simp only [Instr.wf, CmdFields.fits, Bool.and_eq_true, decide_eq_true_eq] at h
  cases c with | mk o g cap s n => cases o <;> cases g <;> simp [encode, Instr.op, Instr.fields, bitOfOrder] at * <;> omega

end Sys2Proof.Laws.TableMatch
end

