-- ==== Sys2Proof/Laws/Rounding.lean ====
section
/-! SUPPORT. Rounding seen on real values: the value of a finite pattern, and that a packed `roundMag` is the correctly
rounded ratio. -/

namespace Sys2Proof.Machine

/-- A real number with a sign. -/
def signedQ (s : Bool) (q : ℚ) : ℚ :=
  if s then -q else q

/-- The value of a finite pattern, as a signed whole multiple of 2^-1074. -/
theorem floatValue_finite {x : F64} {s : Bool} {m : Nat} (h : classify x = .finite s m) :
    floatValue x = (signedMag s m : ℚ) / 2 ^ 1074 := by
  unfold floatValue
  rw [h]

/-- The value of a finite pattern, from its sign and magnitude. -/
theorem floatValue_signedQ {x : F64} {s : Bool} {m : Nat} (h : classify x = .finite s m) :
    floatValue x = signedQ s ((m : ℚ) / 2 ^ 1074) := by
  rw [floatValue_finite h]
  cases s <;> simp [signedQ, signedMag, neg_div]

@[simp] theorem signedQ_abs (s : Bool) (q : ℚ) : |signedQ s q| = |q| := by
  cases s <;> simp [signedQ]

theorem signedQ_sub (s : Bool) (p q : ℚ) : signedQ s p - signedQ s q = signedQ s (p - q) := by
  cases s <;> simp [signedQ]
  ring

@[simp] theorem signedQ_zero (s : Bool) : signedQ s 0 = 0 := by
  cases s <;> simp [signedQ]

/-- Two numbers of opposite signs are as far apart as their magnitudes together. -/
theorem signedQ_opposite (s t : Bool) (h : t ≠ s) (p q : ℚ) (hp : 0 ≤ p) (hq : 0 ≤ q) :
    |signedQ t p - signedQ s q| = p + q := by
  cases s <;> cases t <;> simp only [signedQ, if_true, Bool.false_eq_true, if_false, ne_eq, not_true] at *
  · rw [abs_of_nonpos (by linarith)]
    ring
  · rw [abs_of_nonneg (by linarith)]
    ring

/-- One unit is 2^1074 multiples of 2^-1074. -/
theorem oneMag_cast : (oneMag : ℚ) = 2 ^ 1074 := by
  unfold oneMag
  rw [pow2_eq]
  push_cast
  rfl

theorem oneMag_pos : 0 < oneMag := by
  unfold oneMag
  rw [pow2_eq]
  exact pow_pos (by norm_num) _

/-- A rounded ratio that is finite is the nearest finite value, even where another is as near. -/
theorem roundMag_near (num den : Nat) (hd : 0 < den) (b : Nat) (hlt : roundMag num den < infinityBits) :
    |((bitsMag (roundMag num den) * den : ℤ)) - num| ≤ |((bitsMag b * den : ℤ)) - num| ∧
    (bitsMag b ≠ bitsMag (roundMag num den) → |((bitsMag b * den : ℤ)) - num| = |((bitsMag (roundMag num den) * den : ℤ)) - num| → roundMag num den % 2 = 0) := by
  obtain ⟨k, m, -, hm, h53, hk, hR, hB, hlow, hhigh⟩ := roundMag_significand num den hd
  have hRe : roundMag num den = k * 2^52 + m := by rw [hR] at hlt ⊢; simp only [Nat.min_def] at *; split at hlt <;> simp_all
  rw [hRe, hB]
  have hU : 0 < den * 2^k := by positivity
  have near := fun j => roundHalfEven_nearest num (den * 2^k) hU j
  rw [← hm] at near
  have e1 : ∀ j : Nat, ((j * 2^k : Nat) * den : ℤ) = j * ((den * 2^k : Nat) : ℤ) := by intro j; push_cast; ring
  rw [e1]
  rcases bitsMag_coarse b k with ⟨j, hj⟩ | ⟨hk1, hlt'⟩
  · rw [hj, e1]
    refine ⟨(near j).1, fun hne he => ?_⟩
    have := (near j).2 (fun h => hne (by rw [h])) he
    omega
  · have h52 := (near (2^52)).1
    have hl := hlow hk1
    have hlz : ((2^52 : Nat) : ℤ) * ((den * 2^k : Nat) : ℤ) ≤ num := by exact_mod_cast hl
    have h3 : (bitsMag b * den : ℤ) < ((2^52 : Nat) : ℤ) * ((den * 2^k : Nat) : ℤ) := by
      have := Nat.mul_lt_mul_of_pos_right hlt' hd
      calc (bitsMag b * den : ℤ) < ((2^52 * 2^k * den : Nat) : ℤ) := by exact_mod_cast this
        _ = _ := by push_cast; ring
    have a1 : |(((2^52 : Nat) : ℤ) * ((den * 2^k : Nat) : ℤ)) - num| = num - ((2^52 : Nat) : ℤ) * ((den * 2^k : Nat) : ℤ) := by
      rw [abs_of_nonpos (by omega)]; ring
    have a2 : |(bitsMag b * den : ℤ) - num| = num - (bitsMag b * den : ℤ) := by
      rw [abs_of_nonpos (by omega)]; ring
    rw [a1] at h52
    rw [a2]
    constructor
    · omega
    · intro _ he; omega

/-- A rounded ratio is finite exactly below the halfway point to 2^1024. -/
theorem roundMag_overflow (num den : Nat) (hd : 0 < den) :
    roundMag num den < infinityBits ↔ num < (2^2098 - 2^2044) * den := by
  obtain ⟨k, m, -, hm, h53, hk, hR, hB, hlow, hhigh⟩ := roundMag_significand num den hd
  have hinf : roundMag num den < infinityBits ↔ k * 2^52 + m < 2047 * 2^52 := by
    rw [hR]; unfold infinityBits; simp only [Nat.min_def]; split <;> omega
  rw [hinf]
  have hU : 0 < den * 2^k := by positivity
  have hb : (2:ℕ)^2098 - 2^2044 = (2^54 - 1) * 2^2044 := by
    rw [Nat.sub_mul, ← pow_add, one_mul]
  rw [hb]
  rcases Nat.lt_trichotomy k 2045 with h | h | h
  · refine iff_of_true (by omega) ?_
    calc num < 2^53 * (den * 2^k) := hhigh
      _ ≤ 2^53 * (den * 2^2044) := by gcongr <;> omega
      _ ≤ (2^54-1) * 2^2044 * den := by
        rw [mul_comm den, ← mul_assoc]
        gcongr; norm_num
  · subst h
    have hspec := roundHalfEven_spec num (den * 2^2045) hU
    rw [← hm] at hspec
    have hdm := Nat.div_add_mod num (den * 2^2045)
    have hml := Nat.mod_lt num hU
    have hq : num / (den * 2^2045) < 2^53 := by rw [Nat.div_lt_iff_lt_mul hU]; exact hhigh
    have e : (2^54 - 1) * 2^2044 * den * 2 = (2^54 - 1) * (den * 2^2045) := by
      rw [show (2:ℕ)^2045 = 2^2044*2 from pow_succ 2 2044]; ring
    generalize den * 2^2045 = U at *
    generalize num / U = q at *
    generalize num % U = r at *
    have key : num < (2^54 - 1) * 2^2044 * den ↔ 2 * num < (2^54-1) * U := by omega
    rw [key]
    have hqU : q ≤ 2^53 - 2 → U * q ≤ (2^53-2) * U := by
      intro h; rw [mul_comm]; exact Nat.mul_le_mul_right _ h
    rcases Nat.lt_or_ge q (2^53-1) with hq1 | hq1
    · have := hqU (by omega)
      refine iff_of_true ?_ ?_
      · rcases hspec with h | h | h <;> omega
      · omega
    · have hqe : q = 2^53-1 := by omega
      subst hqe
      have : U * (2^53-1) = (2^53-1) * U := mul_comm _ _
      rcases hspec with h | h | h
      · constructor <;> intro <;> omega
      · constructor <;> intro <;> omega
      · constructor <;> intro <;> omega
  · refine iff_of_false (by omega) ?_
    rw [not_lt]
    have := hlow (by omega)
    calc (2^54-1) * 2^2044 * den ≤ 2^54 * 2^2044 * den := by gcongr; norm_num
      _ = 2^52 * (den * 2^2046) := by rw [show (2:ℕ)^2046 = 2^2044 * 4 by rw [show (4:ℕ) = 2^2 by norm_num, ← pow_add]]; ring
      _ ≤ 2^52 * (den * 2^k) := by gcongr <;> omega
      _ ≤ num := this

/-- The same, on real values. -/
theorem below_overflowBound (num den : Nat) (hd : 0 < den) : (num : ℚ) / (den * 2^1074) < overflowBound ↔ roundMag num den < infinityBits := by
  have hdq : (0:ℚ) < den := by exact_mod_cast hd
  rw [roundMag_overflow _ _ hd]
  have : overflowBound * (den * 2^1074) = (((2^2098 - 2^2044) * den : ℕ) : ℚ) := by
      unfold overflowBound
      have h2 : (2:ℕ)^2044 ≤ 2^2098 := Nat.pow_le_pow_right (by norm_num) (by norm_num)
      push_cast [Nat.cast_sub h2]
      have e1 : (2:ℚ)^2098 = 2^1024 * 2^1074 := by rw [← pow_add]
      have e2 : (2:ℚ)^2044 = 2^970 * 2^1074 := by rw [← pow_add]
      rw [e1, e2]; ring
  have hp : (0:ℚ) < 2^1074 := pow_pos (by norm_num) _
  rw [div_lt_iff₀ (mul_pos hdq hp), this]; exact_mod_cast Iff.rfl

/-- Packing a rounded ratio rounds the ratio's real value correctly. -/
theorem roundsTo_packFloat (s : Bool) (num den : Nat) (hd : 0 < den) (v : ℚ) (hv : v = signedQ s ((num : ℚ) / (den * 2^1074)))
   : RoundsTo v (packFloat s (roundMag num den)) := by
  have hob := below_overflowBound num den hd
  have hvF : ∀ {x : F64} {s m}, (h : classify x = .finite s m) → floatValue x = signedQ s ((m : ℚ) / 2^1074) := fun h => floatValue_signedQ h
  have hD : (0:ℚ) < 2^1074 := pow_pos (by norm_num) _
  generalize (2:ℚ)^1074 = D at *
  have hdq : (0:ℚ) < den := by exact_mod_cast hd
  have hDD : 0 < den * D := mul_pos hdq hD
  have habs : |v| = (num : ℚ) / (den * D) := by
    rw [hv, signedQ_abs, abs_of_nonneg]; positivity
  rw [← habs] at hob
  unfold RoundsTo
  by_cases hlt : roundMag num den < infinityBits
  · rw [if_pos (hob.mpr hlt)]
    have hc := classify_packFloat_finite s _ hlt
    have hfin := isFinite_of_classify hc
    have hval := hvF hc
    have hdist : ∀ m : Nat, |signedQ s ((m : ℚ) / D) - v| = ((|(m * den : ℤ) - num| : ℤ) : ℚ) / (den * D) := by
      intro m
      rw [hv, signedQ_sub, signedQ_abs]
      have : (m : ℚ) / D - num / (den * D) = (((m * den : ℤ) - num : ℤ) : ℚ) / (den * D) := by
        push_cast; field_simp
      rw [this, abs_div, abs_of_pos hDD]
      push_cast; rfl
    have hz : ∀ {a b : ℤ}, (a:ℚ) / (den * D) ≤ (b:ℚ) / (den * D) ↔ a ≤ b := by
      intro a b; rw [div_le_div_iff_of_pos_right hDD]; exact_mod_cast Iff.rfl
    have hze : ∀ {a b : ℤ}, (a:ℚ) / (den * D) = (b:ℚ) / (den * D) ↔ a = b := by
      intro a b; rw [div_left_inj' (ne_of_gt hDD)]; exact_mod_cast Iff.rfl
    have hnear := fun b => roundMag_near num den hd b hlt
    have hy : ∀ y : F64, isFinite y = true → floatValue y = signedQ (floatSign y) ((bitsMag (fieldsNat y) : ℚ) / D) :=
      fun y h => hvF (classify_of_isFinite h)
    have h0 : bitsMag 0 = 0 := by simp [bitsMag, floatMag]
    have n1 : (0:ℚ) ≤ (num : ℚ) / (den * D) := by positivity
    have h00 := hdist 0
    have e0 : |signedQ s (((0:Nat):ℚ) / D) - v| = num / (den * D) := by
      rw [Nat.cast_zero, zero_div, signedQ_zero, zero_sub, abs_neg, habs]
    rw [e0] at h00
    have hq0 := (hnear 0).1
    rw [h0] at hq0
    have hq0' := hz.mpr hq0
    rw [← h00] at hq0'
    refine ⟨hfin, ?_, ?_⟩
    · intro y hyf
      rw [hval, hy y hyf, hdist]
      have n2 : (0:ℚ) ≤ (bitsMag (fieldsNat y) : ℚ) / D := by positivity
      by_cases hss : floatSign y = s
      · rw [hss, hdist, hz]; exact (hnear _).1
      · rw [hv, signedQ_opposite _ _ hss _ _ n2 n1]; linarith
    · intro y hyf hne he
      have hpar : roundMag num den % 2 = 0 → (packFloat s (roundMag num den)).getLsbD 0 = false := by
        intro h
        unfold packFloat
        rw [BitVec.getLsbD_ofNat]
        cases s <;> simp [Nat.testBit_zero] <;> omega
      have n2 : (0:ℚ) ≤ (bitsMag (fieldsNat y) : ℚ) / D := by positivity
      rw [hval, hy y hyf] at hne
      rw [hval, hy y hyf, hdist] at he
      apply hpar
      by_cases hss : floatSign y = s
      · rw [hss] at he hne
        rw [hdist, hze] at he
        exact (hnear (fieldsNat y)).2 (fun h => hne (by rw [h])) he
      · rw [hv, signedQ_opposite _ _ hss _ _ n2 n1] at he
        have hy0 : (bitsMag (fieldsNat y) : ℚ) / D = 0 := by linarith
        rw [hy0, zero_add, h00, hze] at he
        refine (hnear 0).2 ?_ (by rw [h0]; exact he)
        intro h
        rw [h0] at h
        rw [hy0, ← h, Nat.cast_zero, zero_div, signedQ_zero, signedQ_zero] at hne
        exact hne rfl
  · rw [if_neg (fun h => hlt (hob.mp h)), classify_roundMag, if_neg hlt]
    congr 1
    have hn0 : num ≠ 0 := by
      rintro rfl
      apply hlt
      simp [roundMag, roundHalfEven, excessBits, infinityBits]
    have hpos : (0:ℚ) < (num : ℚ) / (den * D) := by
      have : (0:ℚ) < num := by exact_mod_cast Nat.pos_of_ne_zero hn0
      positivity
    rw [hv]
    cases s
    · rw [eq_comm, decide_eq_false_iff_not]; simp only [signedQ]; simp; linarith
    · rw [eq_comm, decide_eq_true_iff]; simp only [signedQ]; simp; linarith

end Sys2Proof.Machine
end

