-- ==== Sys2Proof/Tests/Slice0.lean ====
section
/-! SUPPORT. Tests on fixed values, each expected value taken from `95_test_vectors.md` (the vector is named), and one
theorem for each obligation with hypotheses that meets them all. -/

namespace Sys2Proof.Tests

open Sys2Proof Sys2Proof.Machine

/-! ### Helpers -/

/-- The reference payload PREF of `95_test_vectors.md`. -/
def pref : Word64 := 0xA55A00FFABCD1234#64

def one : F64 := 0x3FF0000000000000#64
def ten : F64 := 0x4024000000000000#64
def minusTen : F64 := 0xC024000000000000#64
def plusInfinity : F64 := 0x7FF0000000000000#64
def minusInfinity : F64 := 0xFFF0000000000000#64
def someNan : F64 := 0x7FF8000000000000#64
def minusZero : F64 := 0x8000000000000000#64
/-- 1e308, -1e308, 1.7e308 and -1.7e308 (VR27, VR28). -/
def huge : F64 := 0x7FE1CCF385EBC8A0#64
def minusHuge : F64 := 0xFFE1CCF385EBC8A0#64
def hugest : F64 := 0x7FEE42D130773B76#64
def minusHugest : F64 := 0xFFEE42D130773B76#64

/-- A request of the Bit Codec. -/
def codecRequest (cmd : Word32) (payload raw : Word64) : Request :=
  { Request.zero with cmd := cmd, payloadIn := payload, rawIn := raw }

/-- A request of TOPHYS on PREF. -/
def tophysRequest (cmd : Word32) (raw : Word64) (factor offset mn mx : F64) : Request :=
  ⟨cmd, pref, raw, 0, factor, offset, mn, mx⟩

/-- A request of TORAW on PREF. -/
def torawRequest (cmd : Word32) (phys factor offset mn mx : F64) : Request :=
  ⟨cmd, pref, 0, phys, factor, offset, mn, mx⟩

/-- CORE with one transaction in progress, the inputs still to come and nothing answered. -/
def busy (r : Request) (input : List HostEvent) : State := ⟨some r, input, []⟩

/-! ### WellFormed: each check refuses an ill-formed term -/

theorem test_wf_cap_field : (Instr.tophys ⟨.intel, false, 16, 0, 8⟩).wf = false := by decide
theorem test_wf_start_field : (Instr.toraw ⟨.intel, false, 0, 64, 8⟩).wf = false := by decide
theorem test_wf_length_field : (Instr.extract ⟨.intel, false, 8, 0, 128⟩).wf = false := by decide
theorem test_wf_cap_extract : (Instr.extract ⟨.intel, false, 9, 0, 8⟩).wf = false := by decide
theorem test_wf_cap_insert : (Instr.insert ⟨.motorola, false, 9, 0, 8⟩).wf = false := by decide
theorem test_wf_line_extract_cap : (AsmLine.extract .intel 9 0 8).wf = false := by decide
theorem test_wf_line_extract_start : (AsmLine.extract .intel 8 64 8).wf = false := by decide
theorem test_wf_line_extract_len : (AsmLine.extract .intel 8 0 128).wf = false := by decide
theorem test_wf_line_insert_cap : (AsmLine.insert .intel 9 0 8).wf = false := by decide
theorem test_wf_line_insert_start : (AsmLine.insert .intel 8 64 8).wf = false := by decide
theorem test_wf_line_insert_len : (AsmLine.insert .intel 8 0 128).wf = false := by decide
theorem test_wf_line_tophys_len : (AsmLine.tophys true 128).wf = false := by decide
theorem test_wf_line_toraw_len : (AsmLine.toraw true 128).wf = false := by decide

/-! ### Decode: words written out from rule R50's layout -/

/-- VE5: LENGTH 12, START_BIT 12, CAP 8, SIGNED 0, ORDER 0, OP 00, bit by bit. -/
theorem test_decode_extract :
    decode 0b000000000_0001100_00_001100_1000_0_0_00#32 = .command (.extract ⟨.intel, false, 8, 12, 12⟩) := by decide
/-- VI2: LENGTH 16, START_BIT 23, CAP 8, SIGNED 0, ORDER 1, OP 01. -/
theorem test_decode_insert :
    decode 0b000000000_0010000_00_010111_1000_0_1_01#32 = .command (.insert ⟨.motorola, false, 8, 23, 16⟩) := by decide
/-- VP26: LENGTH 8, START_BIT 63, CAP 15, SIGNED 1, ORDER 1, OP 10: a CAP above 8 is ignored. -/
theorem test_decode_tophys :
    decode 0b000000000_0001000_00_111111_1111_1_1_10#32 = .command (.tophys ⟨.motorola, true, 15, 63, 8⟩) := by decide
/-- VR2: LENGTH 8, SIGNED 1, OP 11. -/
theorem test_decode_toraw :
    decode 0b000000000_0001000_00_000000_0000_1_0_11#32 = .command (.toraw ⟨.intel, true, 0, 0, 8⟩) := by decide
/-- VX1, VX2: reserved bits 14 and 24. -/
theorem test_decode_reserved :
    decode 0x00104080#32 = .rejected .reservedBits ∧ decode 0x01000000#32 = .rejected .reservedBits := by decide
/-- VX4, VX5: CAP 9 and 15 on EXTRACT and INSERT. -/
theorem test_decode_cap :
    decode 0x00080090#32 = .rejected .capAboveEight ∧ decode 0x000800F1#32 = .rejected .capAboveEight := by decide
/-- The example of rule R59. -/
theorem test_assemble :
    (AsmLine.extract .motorola 8 15 16).assemble = 0x00100F84#32 ∧
    (AsmLine.extract .motorola 8 15 16).text = "EXTRACT.M cap=8, start=15, len=16" := by decide
/-- A row's word that does not fit the 32-bit command word stands for none; one that does is read bit for bit. -/
theorem test_table_word :
    decodeTableWord 40 (2 ^ 33) = none ∧
    decodeTableWord 32 0x00080002 = some (.tophys ⟨.intel, false, 0, 0, 8⟩) := by decide

/-! ### One step of each operation -/

/-- VE4. -/
theorem test_extract_motorola_straddle :
    reply (step (busy (codecRequest 0x00080B84#32 pref 0) [])) = .answered ⟨pref, .extractOk 0x23#64⟩ := by decide
/-- VE14: index -1 is the geometry fault. -/
theorem test_extract_below_zero :
    reply (step (busy (codecRequest 0x00020084#32 pref 0) [])) = .answered ⟨pref, .fault .geometryOutOfRange⟩ := by decide
/-- VI5. -/
theorem test_insert_keeps_neighbours :
    reply (step (busy (codecRequest 0x00080481#32 pref 0) [])) = .answered ⟨0xA55A00FFABCD1004#64, .insertOk⟩ := by decide
/-- VI12: bytes beyond the capacity pass through. -/
theorem test_insert_beyond_capacity :
    reply (step (busy (codecRequest 0x00100F25#32 pref 0xFFFF#64) [])) =
      .answered ⟨0xA55A00FFABCDFFFF#64, .insertOk⟩ := by decide
/-- S5: 65535 * 0.01 clamped to 300. -/
theorem test_tophys_clamps :
    reply (step (busy (tophysRequest 0x00100002#32 0xFFFF#64 0x3F847AE147AE147B#64 0 0 0x4072C00000000000#64) [])) =
      .answered ⟨pref, .tophysOk 0x4072C00000000000#64 true⟩ := by decide
/-- VP10: the most negative 64-bit value. -/
theorem test_tophys_most_negative :
    reply (step (busy (tophysRequest 0x0040000A#32 0x8000000000000000#64 one 0 0xC6293E5939A08CEA#64
      0x46293E5939A08CEA#64) [])) = .answered ⟨pref, .tophysOk 0xC3E0000000000000#64 false⟩ := by decide
/-- VR30: 0.3 / 0.1 rounds below 3. -/
theorem test_toraw_truncates :
    reply (step (busy (torawRequest 0x00100003#32 0x3FD3333333333333#64 0x3FB999999999999A#64 0 0
      0x4059000000000000#64) [])) = .answered ⟨pref, .torawOk 2#64 false⟩ := by decide
/-- VR28: the subtraction overflows to -infinity; the signed field saturates. -/
theorem test_toraw_saturates_low :
    reply (step (busy (torawRequest 0x0008000B#32 minusHuge one huge minusHugest hugest) [])) =
      .answered ⟨pref, .torawOk 0x80#64 true⟩ := by decide

/-! ### Witnesses: the encoding -/

theorem test_witness_DecodeOfEncode :
    (Instr.extract ⟨.motorola, true, 8, 63, 127⟩).wf = true ∧ (Instr.insert ⟨.intel, false, 0, 0, 0⟩).wf = true ∧
    (Instr.tophys ⟨.motorola, true, 15, 63, 127⟩).wf = true ∧ (Instr.toraw ⟨.intel, true, 15, 63, 64⟩).wf = true := by
  decide

theorem test_witness_EncodeOfDecode :
    decode 0x007F3F8C#32 = .command (.extract ⟨.motorola, true, 8, 63, 127⟩) := by decide

/-- The four values of the rule's match column, each with a word; CAP 8 is spelled and CAP 9 is not. -/
theorem test_witness_WordSpellsOperation :
    (decode 0x00080080#32 = .command (.extract ⟨.intel, false, 8, 0, 8⟩) ∧ 0x00080080#32 &&& 0xFF80C003#32 = 0#32) ∧
    (decode 0x00080081#32 = .command (.insert ⟨.intel, false, 8, 0, 8⟩) ∧ 0x00080081#32 &&& 0xFF80C003#32 = 1#32) ∧
    (decode 0x00080092#32 = .command (.tophys ⟨.intel, false, 9, 0, 8⟩) ∧ 0x00080092#32 &&& 0xFF80C003#32 = 2#32) ∧
    (decode 0x007F3FFF#32 = .command (.toraw ⟨.motorola, true, 15, 63, 127⟩) ∧ 0x007F3FFF#32 &&& 0xFF80C003#32 = 3#32) ∧
    (decode 0x00080090#32 = .rejected .capAboveEight ∧ 0x00080090#32 &&& 0xFF80C003#32 = 0#32) := by decide

theorem test_witness_CommandFieldsAreSlices :
    decode 0x007F3FFE#32 = .command (.tophys ⟨.motorola, true, 15, 63, 127⟩) ∧
    decode 0x00000000#32 = .command (.extract ⟨.intel, false, 0, 0, 0⟩) := by decide

theorem test_witness_AssembledLineDecodes :
    (AsmLine.extract .motorola 8 63 127).wf = true ∧ (AsmLine.insert .intel 0 0 0).wf = true ∧
    (AsmLine.tophys true 127).wf = true ∧ (AsmLine.toraw false 0).wf = true := by decide

/-! ### Witnesses: the Bit Codec -/

/-- The Intel and Motorola signals of 64 bits, legal on an 8-byte payload. -/
def wholeIntel : CmdFields := ⟨.intel, false, 8, 0, 64⟩
def wholeMotorola : CmdFields := ⟨.motorola, false, 8, 63, 64⟩
/-- VE19: a capacity of 0 has no legal geometry. -/
def noRoom : CmdFields := ⟨.intel, false, 0, 0, 1⟩
def codecState : State := busy (codecRequest 0x00400080#32 pref 5) []

theorem test_witness_OrdersShareOnlyTheStartBit :
    (1 : Nat) ≤ 1 ∧ ((0 : Nat) : Int) ∈ touched .intel 0 1 ∧ ((0 : Nat) : Int) ∈ touched .motorola 0 1 := by decide

theorem test_witness_LegalGeometriesOfAnEightBytePayload :
    (1 : Nat) ≤ 1 ∧ 1 ≤ 64 ∧ (1 : Nat) ≤ 64 ∧ 64 ≤ 64 ∧ geometryOk 8 .intel 0 64 = true := by decide

/-- Also the witness of `ExtractIsShiftAndMask`. -/
theorem test_witness_ExtractReadsTheField :
    codecState.transaction = some (codecRequest 0x00400080#32 pref 5) ∧
    (Instr.extract wholeIntel).wf = true ∧ geometryOk 8 .intel 0 64 = true ∧
    (Instr.extract wholeMotorola).wf = true ∧ geometryOk 8 .motorola 63 64 = true ∧
    (Instr.extract noRoom).wf = true ∧ geometryOk 0 .intel 0 1 = false := by decide

/-- Two requests that differ in an untouched payload bit, in `RAW_IN` and in the command word. -/
theorem test_witness_ExtractReadsNothingElse :
    let c : CmdFields := ⟨.intel, false, 8, 0, 1⟩
    let r := codecRequest 0x00010080#32 1 0
    let q := codecRequest 0x00000002#32 3 7
    (busy r []).transaction = some r ∧ (busy q []).transaction = some q ∧ (Instr.extract c).wf = true ∧ r ≠ q ∧
    ∀ b : Nat, (b : Int) ∈ touched c.order c.startBit c.length → r.payloadIn.getLsbD b = q.payloadIn.getLsbD b := by
  refine ⟨rfl, rfl, rfl, by decide, ?_⟩
  intro b hb
  obtain ⟨i, hi, he⟩ := mem_touched.mp hb
  have hb0 : b = 0 := by
    simp only [srcIndex] at he hi
    omega
  subst hb0
  decide

/-- Also the witness of `InsertIsMaskAndMerge` and, with the state twice, of `ExtractAfterInsertReturnsTheValue`. -/
theorem test_witness_InsertWritesTheFieldOnly :
    codecState.transaction = some (codecRequest 0x00400080#32 pref 5) ∧
    (Instr.insert wholeIntel).wf = true ∧ geometryOk 8 .intel 0 64 = true ∧
    (Instr.insert wholeMotorola).wf = true ∧ geometryOk 8 .motorola 63 64 = true ∧
    (Instr.insert noRoom).wf = true ∧ geometryOk 0 .intel 0 1 = false := by decide

/-- The payload that the round trip's EXTRACT takes is the one INSERT answered (VI7, a value wider than the field). -/
theorem test_witness_ExtractAfterInsertReturnsTheValue :
    (Instr.insert ⟨.intel, false, 8, 0, 4⟩).wf = true ∧ geometryOk 8 .intel 0 4 = true ∧
    reply (exec (.insert ⟨.intel, false, 8, 0, 4⟩) (busy (codecRequest 0x00040081#32 0 0xFF#64) [])) =
      .answered ⟨0x0F#64, .insertOk⟩ ∧
    (codecRequest 0x00040080#32 0x0F#64 0).payloadIn = 0x0F#64 := by decide

/-- Neighbouring fields, one in each order. -/
theorem test_witness_DisjointInsertsCommute :
    let c : CmdFields := ⟨.intel, false, 8, 0, 8⟩
    let d : CmdFields := ⟨.motorola, false, 8, 15, 8⟩
    (Instr.insert c).wf = true ∧ (Instr.insert d).wf = true ∧ geometryOk c.cap c.order c.startBit c.length = true ∧
    geometryOk d.cap d.order d.startBit d.length = true ∧ disjointFields c d := by
  refine ⟨rfl, rfl, rfl, rfl, ?_⟩
  have h : ∀ b ∈ touched .intel 0 8, b ∉ touched .motorola 15 8 := by decide
  exact h

theorem test_witness_SecondInsertOverwritesTheFirst :
    (Instr.insert wholeMotorola).wf = true ∧ geometryOk 8 .motorola 63 64 = true := by decide

/-- The two ends of the range: one bit at 0, and the whole payload. -/
theorem test_witness_MotorolaIsIntelFromTheOtherEnd :
    ((8 : Nat) ≤ 8 ∧ 1 ≤ 1 ∧ 1 ≤ 0 + 1) ∧ ((0 : Nat) ≤ 8 ∧ 1 ≤ 64 ∧ 64 ≤ 63 + 1) := by decide

/-! ### Witnesses: numerics -/

/-- A zero sum of two negative zeros, and a divisor whose value is not zero: the least subnormal. -/
theorem test_witness_SignsOfResults :
    isFinite minusZero = true ∧ floatValue minusZero + floatValue minusZero = 0 ∧
    isFinite 1#64 = true ∧ floatValue 1#64 ≠ 0 := by
  have h : classify minusZero = .finite true 0 := by decide
  have h1 : classify 1#64 = .finite false 1 := by decide
  refine ⟨by decide, ?_, by decide, ?_⟩
  · rw [floatValue_finite h]
    simp [signedMag]
  · rw [floatValue_finite h1]
    simp [signedMag]

/-- Also the witness of `ArithmeticIsCorrectlyRounded` (its divisor: the theorem above) and of `InfinitiesPropagate`. -/
theorem test_witness_ComparisonsAreOfRealValues :
    isFinite one = true ∧ isFinite minusTen = true ∧ classify plusInfinity = .infinite false ∧
    classify minusInfinity = .infinite true ∧ classify someNan = .nan := by decide

/-- The ends of each range: -2^63, 2^64 - 1, 2^53, and 53 significant bits in place 11. -/
theorem test_witness_IntegersConvertToTheNearestValue :
    ((-(2 ^ 63) : Int) ≤ -(2 ^ 63) ∧ (-(2 ^ 63) : Int) ≤ 2 ^ 64 - 1) ∧
    ((-(2 ^ 63) : Int) ≤ 2 ^ 64 - 1 ∧ (2 ^ 64 - 1 : Int) ≤ 2 ^ 64 - 1) ∧
    ((2 ^ 53 : Int).natAbs ≤ 2 ^ 53 ∧ (-(2 ^ 53) : Int).natAbs ≤ 2 ^ 53) ∧
    ((2 ^ 53 - 1 : Int).natAbs < 2 ^ 53 ∧ -(2 ^ 63) ≤ (2 ^ 53 - 1 : Int) * 2 ^ 11 ∧
      (2 ^ 53 - 1 : Int) * 2 ^ 11 ≤ 2 ^ 64 - 1) := by decide

theorem test_witness_TruncationDropsTheFraction :
    isFinite 0xC007333333333333#64 = true ∧ truncToInt 0xC007333333333333#64 = some (-2) ∧
    isFinite plusInfinity = false ∧ isFinite someNan = false := by decide

/-! ### Witnesses: the Physical Converter -/

theorem test_witness_NumericValueOfRaw : (1 : Nat) ≤ 1 ∧ 1 ≤ 64 ∧ (1 : Nat) ≤ 64 ∧ 64 ≤ 64 := by decide

/-- The ends of the signed and the unsigned 64-bit range, and of the signed 1-bit range. -/
theorem test_witness_FieldEncodingReadsBack :
    (fieldLow 64 true ≤ -(2 ^ 63) ∧ (-(2 ^ 63) : Int) ≤ fieldHigh 64 true) ∧
    (fieldLow 64 false ≤ 2 ^ 64 - 1 ∧ (2 ^ 64 - 1 : Int) ≤ fieldHigh 64 false) ∧
    (fieldLow 1 true ≤ -1 ∧ (-1 : Int) ≤ fieldHigh 1 true) := by decide

/-- Each clause: below, above, strictly inside, equal to `MIN`, equal to `MAX`; and a range of one value. -/
theorem test_witness_ClampIsStrict :
    isFinite minusTen = true ∧ isFinite ten = true ∧ flt ten minusTen = false ∧ flt ten ten = false ∧
    flt minusInfinity minusTen = true ∧ fgt plusInfinity ten = true ∧
    (flt one minusTen = false ∧ fgt one ten = false) ∧ feq minusTen minusTen = true ∧ feq ten ten = true := by decide

/-- `1 * numeric + 0` in [0, 10]. -/
def tophysTest (raw : Word64) : Request := tophysRequest 0x0008000A#32 raw one 0 0 ten

/-- Each clause: lengths 0 and 65; a NaN bound and `MAX < MIN`; a scaled value below `MIN`, above `MAX`, equal to `MAX`. Also
the witness of `TophysAnswersWithinTheBounds`. -/
theorem test_witness_TophysScalesAndClamps :
    (busy (tophysTest 0xFF#64) []).transaction = some (tophysTest 0xFF#64) ∧
    lengthOk 0 = false ∧ lengthOk 65 = false ∧ lengthOk 1 = true ∧ lengthOk 64 = true ∧
    tophysDomain (tophysRequest 0x00080002#32 5 someNan 0 0 one) = false ∧
    tophysDomain (tophysRequest 0x00080002#32 5 one 0 ten 0) = false ∧
    tophysDomain (tophysTest 0xFF#64) = true ∧
    flt (fadd (fmul (intToF64 (numeric 0xFF#64 8 true)) one) 0) 0 = true ∧
    fgt (fadd (fmul (intToF64 (numeric 0x7F#64 8 true)) one) 0) ten = true ∧
    (flt (fadd (fmul (intToF64 (numeric 0x0A#64 8 true)) one) 0) 0 = false ∧
      fgt (fadd (fmul (intToF64 (numeric 0x0A#64 8 true)) one) 0) ten = false) := by decide

/-- In the domain with a factor that is not zero; outside it; with each zero. Also the witness of
`TorawAnswersWithinTheField`. -/
theorem test_witness_TorawConverts :
    (busy (torawRequest 0x00080003#32 one one 0 0 ten) []).transaction = some (torawRequest 0x00080003#32 one one 0 0 ten) ∧
    lengthOk 8 = true ∧ lengthOk 0 = false ∧ lengthOk 65 = false ∧
    torawDomain (torawRequest 0x00080003#32 one one 0 0 ten) = true ∧ feq one positiveZero = false ∧
    torawDomain (torawRequest 0x00080003#32 someNan one 0 0 ten) = false ∧
    torawDomain (torawRequest 0x00080003#32 one one 0 ten 0) = false ∧
    torawDomain (torawRequest 0x00080003#32 one minusZero 0 0 ten) = true ∧ feq 0 positiveZero = true ∧
    feq minusZero positiveZero = true := by decide

/-- The five cases of stage 2: both infinities (VR27, VR28), an integer below (VR9), above (VR25) and at the end of the
field (VR23). -/
theorem test_witness_TorawConverts_stages :
    classify (fdiv (fsub huge minusHuge) one) = .infinite false ∧
    classify (fdiv (fsub minusHuge huge) one) = .infinite true ∧
    truncToInt (fdiv (fsub 0xC014000000000000#64 0) one) = some (-5) ∧
    truncToInt (fdiv (fsub 0x4070000000000000#64 0) one) = some 256 ∧
    truncToInt (fdiv (fsub 0x406FE00000000000#64 0) one) = some 255 := by decide

theorem test_witness_TorawBeyondABoundConvertsTheBound :
    let above := torawRequest 0x00080003#32 huge one 0 0 ten
    let below := torawRequest 0x00080003#32 minusTen one 0 0 ten
    (torawDomain above = true ∧ feq above.factor positiveZero = false ∧ fgt above.physIn above.maxValue = true) ∧
    (torawDomain below = true ∧ feq below.factor positiveZero = false ∧ flt below.physIn below.minValue = true) := by decide

/-! ### Witnesses: faults, refusals and the transaction -/

/-- Also the witness of `ScaleFaultExactlyWhen` and `RefusedExactlyOutsideTheDomain`, whose one hypothesis is the first
clause; both faults and both refusals occur (VE19, VR14, VP25, VP24). -/
theorem test_witness_GeometryFaultExactlyWhen :
    codecState.transaction = some (codecRequest 0x00400080#32 pref 5) ∧
    reply (exec (.extract noRoom) codecState) = .answered ⟨pref, .fault .geometryOutOfRange⟩ ∧
    reply (exec (.toraw ⟨.intel, false, 0, 0, 8⟩) (busy (torawRequest 0x00080003#32 one minusZero 0 0 ten) [])) =
      .answered ⟨pref, .fault .scaleDegenerate⟩ ∧
    reply (exec (.tophys ⟨.intel, false, 0, 0, 8⟩) (busy (tophysRequest 0x00080002#32 5 someNan 0 0 one) [])) =
      .refused .nonFiniteOperand ∧
    reply (exec (.tophys ⟨.intel, false, 0, 0, 8⟩) (busy (tophysRequest 0x00080002#32 5 one 0 ten 0) [])) =
      .refused .minAboveMax := by decide

theorem test_witness_FaultsAreReportedInBand :
    ∃ (t : State) (p : Response), exec (.extract noRoom) codecState = .next t ∧
      t.responses = codecState.responses ++ [p] ∧ p.result = .fault .geometryOutOfRange :=
  ⟨_, _, rfl, rfl, rfl⟩

/-- One request for each of the five outcomes, VX4, VR16, VR42, VR13 and VR2, with nothing or a further request behind it. -/
theorem test_witness_OutcomesInPriorityOrder :
    (busy (codecRequest 0x00080090#32 pref 0) []).input.head? ≠ some .reset ∧
    decode 0x00080090#32 = .rejected .capAboveEight ∧
    (decode 0x00410003#32 = .command (.toraw ⟨.intel, false, 0, 0, 65⟩) ∧
      geometryLegal (.toraw ⟨.intel, false, 0, 0, 65⟩) = false) ∧
    (decode 0x00080003#32 = .command (.toraw ⟨.intel, false, 0, 0, 8⟩) ∧
      geometryLegal (.toraw ⟨.intel, false, 0, 0, 8⟩) = true ∧
      inDomain (.toraw ⟨.intel, false, 0, 0, 8⟩) (torawRequest 0x00080003#32 plusInfinity 0 0 0 ten) = false) ∧
    (inDomain (.toraw ⟨.intel, false, 0, 0, 8⟩) (torawRequest 0x00080003#32 one 0 0 0 ten) = true ∧
      feq (torawRequest 0x00080003#32 one 0 0 0 ten).factor positiveZero = true) ∧
    (inDomain (.toraw ⟨.intel, false, 0, 0, 8⟩) (torawRequest 0x00080003#32 one one 0 0 ten) = true ∧
      feq (torawRequest 0x00080003#32 one one 0 0 ten).factor positiveZero = false) := by decide

theorem test_witness_OperationAddsOneResponse : ∃ t, exec (.extract wholeIntel) codecState = .next t := ⟨_, rfl⟩

/-- A successful INSERT of one byte, and an EXTRACT, each with an untouched payload bit. -/
theorem test_witness_PayloadPassesThrough :
    (∃ (t : State) (p : Response), (Instr.insert ⟨.intel, false, 8, 0, 8⟩).wf = true ∧
      exec (.insert ⟨.intel, false, 8, 0, 8⟩) codecState = .next t ∧ t.responses = codecState.responses ++ [p] ∧
      p.result = .insertOk ∧ ((8 : Nat) : Int) ∉ touched .intel 0 8) ∧
    (∃ (t : State) (p : Response), (Instr.extract wholeIntel).wf = true ∧
      exec (.extract wholeIntel) codecState = .next t ∧ t.responses = codecState.responses ++ [p] ∧
      p.result ≠ .insertOk ∧ wholeIntel.cap * 8 ≤ 64) := by
  refine ⟨⟨_, _, rfl, rfl, rfl, rfl, ?_⟩, ⟨_, _, rfl, rfl, rfl, ?_, ?_⟩⟩
  · decide
  · simp [passThrough]
  · decide

/-- The same transaction before different inputs and after different responses. -/
theorem test_witness_ReplyDependsOnTheRequestAlone :
    let r := codecRequest 0x00080080#32 pref 0
    let s : State := ⟨some r, [], []⟩
    let t : State := ⟨some r, [.wait, .reset], [⟨pref, .insertOk⟩]⟩
    s.transaction = t.transaction ∧ s.transaction.isSome = true ∧ s.input.head? ≠ some .reset ∧
    t.input.head? ≠ some .reset ∧ s ≠ t := by decide

theorem test_witness_StepRunsTheDecodedCommand :
    (busy (codecRequest 0x00080080#32 pref 0) [.wait]).input.head? ≠ some .reset ∧
    decode 0x00080080#32 = .command (.extract ⟨.intel, false, 8, 0, 8⟩) ∧
    decode 0x00800002#32 = .rejected .reservedBits ∧
    decodeTableWord 32 0x00080080 = some (.extract ⟨.intel, false, 8, 0, 8⟩) := by decide

/-- Each clause: a reset behind a transaction, a request and a wait before an idle CORE, nothing left, and a request that
waits while a transaction is in progress. -/
theorem test_witness_HostEventsBetweenOperations :
    let r := codecRequest 0x00080080#32 pref 0
    (busy r [.reset]).input = [.reset] ∧
    ((⟨none, [.request r], []⟩ : State).transaction = none ∧ (⟨none, [.request r], []⟩ : State).input = [.request r]) ∧
    ((⟨none, [.wait], []⟩ : State).transaction = none ∧ (⟨none, [.wait], []⟩ : State).input = [.wait]) ∧
    (State.reset.transaction = none ∧ State.reset.input = []) ∧
    ((busy r [.request r]).transaction.isSome = true ∧ (busy r [.request r]).input.head? ≠ some .reset) ∧
    ∃ t, step (busy r [.request r]) = .next t :=
  ⟨rfl, ⟨rfl, rfl⟩, ⟨rfl, rfl⟩, ⟨rfl, rfl⟩, ⟨rfl, by decide⟩, ⟨_, rfl⟩⟩

/-- A step that answers, and a step that takes a request. -/
theorem test_witness_OneResponsePerRequest :
    let r := codecRequest 0x00080080#32 pref 0
    ((busy r []).input.head? ≠ some .reset ∧ ∃ t, step (busy r []) = .next t) ∧
    ((⟨none, [.request r], []⟩ : State).input.head? ≠ some .reset ∧
      ∃ t, step (⟨none, [.request r], []⟩ : State) = .next t) :=
  ⟨⟨by decide, ⟨_, rfl⟩⟩, ⟨by decide, ⟨_, rfl⟩⟩⟩

/-- An EXTRACT and a faulting TORAW, one behind the other (VE1, VR13). -/
theorem test_witness_RequestsAreAnsweredInIssueOrder :
    List.Forall₂ (fun r p => replyTo r = .answered p)
      [codecRequest 0x00080080#32 pref 0, torawRequest 0x00080003#32 one 0 0 0 ten]
      [⟨pref, .extractOk 0x34#64⟩, ⟨pref, .fault .scaleDegenerate⟩] := by
  refine .cons (by decide) (.cons (by decide) .nil)

/-- A response with a finite `PHYS_OUT` received, and a transaction in progress. -/
theorem test_witness_StepKeepsResponsesLegal :
    let s : State := ⟨some (codecRequest 0x00080080#32 pref 0), [], [⟨pref, .tophysOk one false⟩]⟩
    s.legal ∧ ∃ t, step s = .next t := by
  refine ⟨?_, ⟨_, rfl⟩⟩
  intro p hp
  rw [List.mem_singleton.mp hp]
  refine ⟨by decide, fun y hy => ?_⟩
  rw [← Option.some.inj hy]
  decide

end Sys2Proof.Tests
end

/-! PROOFS. The statements of `10_state.md`: what an operation, a step and reset leave of CORE and of the host's side. -/

namespace Sys2Proof.Machine

/-! ### What an operation leaves behind -/

/-- An operation completes only on a transaction in progress; it ends that transaction with one response. -/
theorem exec_next_response {i : Instr} {s t : State} (h : exec i s = .next t) : ∃ p, t = s.complete p := by
  cases hs : s.transaction with
  | none =>
    rw [exec_idle hs] at h
    cases h
  | some r =>
    rcases exec_cases i r with ⟨p, -, hp⟩ | ⟨e, -, he⟩
    · rw [hp s hs] at h
      cases h
      exact ⟨p, rfl⟩
    · rw [he s hs] at h
      cases h

/-- How an operation completes: with an answer that leaves the payload alone, or as an INSERT with a legal geometry. -/
theorem exec_next_cases {i : Instr} {s t : State} {r : Request} (hs : s.transaction = some r)
    (h : exec i s = .next t) :
    (∃ x, t = s.answer r x) ∨
    (∃ c, i = .insert c ∧ geometryOk c.cap c.order c.startBit c.length = true ∧
      t = s.complete ⟨(insertBits ⟨c.cap, r.payloadIn⟩ c.order c.startBit c.length r.rawIn).field, .insertOk⟩) := by
  cases i with
  | extract c =>
    rw [execExtract_eq hs] at h
    split at h <;> cases h <;> exact .inl ⟨_, rfl⟩
  | insert c =>
    rw [execInsert_eq hs] at h
    split at h
    next g =>
      cases h
      exact .inr ⟨c, rfl, g, rfl⟩
    next =>
      cases h
      exact .inl ⟨_, rfl⟩
  | tophys c =>
    rw [execTophys_eq hs] at h
    split at h
    next =>
      split at h <;> cases h
      exact .inl ⟨_, rfl⟩
    next =>
      cases h
      exact .inl ⟨_, rfl⟩
  | toraw c =>
    rw [execToraw_eq hs] at h
    split at h
    next =>
      split at h
      next => cases h
      next =>
        split at h
        next =>
          cases h
          exact .inl ⟨_, rfl⟩
        next =>
          dsimp only at h
          split at h <;> cases h
          exact .inl ⟨_, rfl⟩
    next =>
      cases h
      exact .inl ⟨_, rfl⟩

/-- A legal geometry touches no index at or beyond the capacity (R35). -/
theorem not_mem_touched_of_capacity_le {cap s n b : Nat} {o : ByteOrder} (h : geometryOk cap o s n = true)
    (hb : cap * 8 ≤ b) : (b : Int) ∉ touched o s n := by
  obtain ⟨-, -, hin⟩ := geometryOk_iff.mp h
  intro hmem
  obtain ⟨j, hj, hjb⟩ := mem_touched.mp hmem
  have hlt := (hin j hj).2
  omega

/-- A well-formed INSERT has a capacity of at most 8 bytes (R15, R54). -/
theorem cap_le_of_insert_wf {c : CmdFields} (h : (Instr.insert c).wf = true) : c.cap ≤ 8 := by
  simp only [Instr.wf, CmdFields.capLegal, Bool.and_eq_true, decide_eq_true_eq] at h
  exact h.2

/-- Settles O43: whatever the operation, its next state is `State.complete` of one response. -/
theorem operationAddsOneResponse : Obligations.OperationAddsOneResponse := by
  intro i s t h
  obtain ⟨p, rfl⟩ := exec_next_response h
  exact ⟨rfl, rfl, p, rfl⟩

/-- Settles O44: the response is an answer that leaves the payload alone, or INSERT's, whose loop writes touched bits only;
none of these lies at or beyond the capacity. -/
theorem payloadPassesThrough : Obligations.PayloadPassesThrough := by
  intro i s t r p hs hwf h hp
  rcases exec_next_cases hs h with ⟨x, rfl⟩ | ⟨c, rfl, hg, rfl⟩
  · have hpx : p = ⟨r.payloadIn, x⟩ := by simpa using hp.symm
    subst hpx
    exact ⟨fun _ => rfl, fun _ _ _ _ => rfl, fun _ _ => rfl⟩
  · have hpi : p = ⟨(insertBits ⟨c.cap, r.payloadIn⟩ c.order c.startBit c.length r.rawIn).field, .insertOk⟩ := by
      simpa using hp.symm
    subst hpi
    have hframe := (insertBits_spec r.payloadIn r.rawIn (cap_le_of_insert_wf hwf) hg).2
    refine ⟨fun hne => absurd rfl hne, fun d hd b hb => ?_, fun b hb => ?_⟩
    · cases hd
      exact hframe b hb
    · exact hframe b (not_mem_touched_of_capacity_le hg hb)

/-! ### What a step does -/

/-- The reply in the state that completes a transaction is that transaction's response. -/
@[simp] theorem reply_next_complete (s : State) (p : Response) : reply (.next (s.complete p)) = .answered p := by
  simp [reply]

/-- An operation's reply depends on the request in progress alone (R10). -/
theorem reply_exec_congr {s t : State} {r : Request} (hs : s.transaction = some r) (ht : t.transaction = some r)
    (i : Instr) : reply (exec i s) = reply (exec i t) := by
  rcases exec_cases i r with ⟨p, -, hp⟩ | ⟨e, -, he⟩
  · rw [hp s hs, hp t ht]
    exact (reply_next_complete s p).trans (reply_next_complete t p).symm
  · rw [he s hs, he t ht]

/-- The step where a reset is next (R120). -/
theorem step_reset {s : State} (h : s.input.head? = some .reset) : step s = .next (takeReset s) := by
  rw [step_eq, if_pos h]

/-- With a transaction in progress and no reset applied, a step that goes on ends the transaction with one response. -/
theorem step_busy_next {s t : State} (hs : s.transaction.isSome = true) (hn : s.input.head? ≠ some .reset)
    (h : step s = .next t) : ∃ p, t = s.complete p := by
  obtain ⟨r, hr⟩ := Option.isSome_iff_exists.mp hs
  rw [step_busy hr hn] at h
  split at h
  next => exact exec_next_response h
  next => cases h

/-- Settles O45: both steps run the same command on the same request; and a step that goes on ends the transaction, by its
response or by a reset. -/
theorem replyDependsOnTheRequestAlone : Obligations.ReplyDependsOnTheRequestAlone := by
  refine ⟨fun s t hst hs hns hnt => ?_, fun s u hs h => ?_⟩
  · obtain ⟨r, hr⟩ := Option.isSome_iff_exists.mp hs
    have ht : t.transaction = some r := hst ▸ hr
    rw [step_busy hr hns, step_busy ht hnt]
    cases decode r.cmd with
    | command i => exact reply_exec_congr hr ht i
    | rejected e => rfl
  · by_cases hn : s.input.head? = some .reset
    · rw [step_reset hn] at h
      cases h
      rfl
    · obtain ⟨p, rfl⟩ := step_busy_next hs hn h
      rfl

theorem placeCommand_input (s : State) (w : Word32) :
    (s.placeCommand w).input = s.input.dropWhile fun e => decide (e = .reset) := rfl

/-- Placing a command takes every reset out of the way. -/
theorem placeCommand_input_head_ne_reset (s : State) (w : Word32) :
    (s.placeCommand w).input.head? ≠ some .reset := by
  intro h
  have hkeep := List.head?_dropWhile_not (fun e => decide (e = HostEvent.reset)) s.input
  rw [← placeCommand_input s w, h] at hkeep
  simp at hkeep

/-- A table row's word that decodes is a command word, and placing the row places that word. -/
theorem withFetchWord_of_decodeTableWord {nbits w : Nat} {i : Instr} (h : decodeTableWord nbits w = some i) :
    ∃ v, decode v = .command i ∧ ∀ s : State, s.withFetchWord nbits w = s.placeCommand v := by
  unfold decodeTableWord at h
  cases hv : tableWord nbits w with
  | none => simp [hv] at h
  | some v =>
    refine ⟨v, ?_, fun s => by simp [State.withFetchWord, placeTableWord, hv]⟩
    cases hd : decode v with
    | command j => simpa [hv, hd, Decoded.instr?] using h
    | rejected e => simp [hv, hd, Decoded.instr?] at h

/-- Settles O47: `step_busy` on each answer of the decoder; a placed word is in progress with no reset before it. -/
theorem stepRunsTheDecodedCommand : Obligations.StepRunsTheDecodedCommand := by
  have hrun : ∀ (s : State) (r : Request) (i : Instr), s.transaction = some r → s.input.head? ≠ some .reset →
      decode r.cmd = .command i → step s = exec i s := fun s r i hs hn hd => by rw [step_busy hs hn, hd]
  refine ⟨hrun, fun s r e hs hn hd => by rw [step_busy hs hn, hd], fun s w i h => ?_⟩
  obtain ⟨v, hd, hplace⟩ := withFetchWord_of_decodeTableWord h
  rw [hplace s]
  exact hrun _ _ i (placeCommand_transaction s v) (placeCommand_input_head_ne_reset s v) hd

/-- Settles O48: a reset by `step_reset`, each input of an idle CORE by `step_idle`, the last clause by
`step_busy_next`. -/
theorem hostEventsBetweenOperations : Obligations.HostEventsBetweenOperations := by
  refine ⟨fun s rest hi => ?_, fun s r rest hs hi => ?_, fun s rest hs hi => ?_, fun s hs hi => ?_,
    fun s t hs hn h => ?_⟩
  · rw [step_reset (by simp [hi])]
    simp [takeReset, hi]
  · rw [step_idle hs (by simp [hi])]
    simp [takeInput, hi]
  · rw [step_idle hs (by simp [hi])]
    simp [takeInput, hi, hs]
  · rw [step_idle hs (by simp [hi])]
    simp [takeInput, hi]
  · obtain ⟨p, rfl⟩ := step_busy_next hs hn h
    rfl

/-! ### Reset, and what the host reads -/

/-- Settles O42: each field of `responseFields` that the outcome produces is that outcome's own. -/
theorem producedFieldsAreRead : Obligations.ProducedFieldsAreRead := by
  intro n p v y k
  exact ⟨rfl, rfl, rfl, rfl, rfl, fun _ => rfl⟩

/-- Settles O49: the reset state has no transaction, and its list of responses has no `n`-th entry. -/
theorem resetLeavesCoreIdle : Obligations.ResetLeavesCoreIdle :=
  ⟨reset_transaction, fun n => by simp [hostReads]⟩

/-- Settles O53: a state without responses is legal. -/
theorem resetIsLegal : Obligations.ResetIsLegal := by
  intro p hp
  simp at hp

end Sys2Proof.Machine

/-! PROOFS. The statements of `20_memory.md`: the touched indices and the bounds check, what EXTRACT and INSERT depend on in
terms of `fieldIndex`, and the order of the transactions. -/

namespace Sys2Proof.Machine

/-! ### The touched indices and the bounds check -/

/-- Settles O8: the indices are the image of `0, ..., n-1` under an injective map. -/
theorem eachIndexTouchedOnce : Obligations.EachIndexTouchedOnce := by
  intro o s n
  exact ⟨List.nodup_range.map fun _ _ => srcIndex_injective, by simp [touched]⟩

/-- Rule R36 in Intel order: the last touched index is the greatest. -/
theorem geometryOk_intel_iff {cap s n : Nat} :
    geometryOk cap .intel s n = true ↔ 1 ≤ n ∧ n ≤ 64 ∧ s + n ≤ cap * 8 := by
  rw [geometryOk_iff]
  refine and_congr_right fun h1 => and_congr_right fun _ => ⟨fun h => ?_, fun h i hi => ?_⟩
  · have hlast := h (n - 1) (by omega)
    simp only [srcIndex] at hlast
    omega
  · simp only [srcIndex]
    omega

/-- Rule R36 in Motorola order: the first touched index is the greatest and the last is the least. -/
theorem geometryOk_motorola_iff {cap s n : Nat} :
    geometryOk cap .motorola s n = true ↔ 1 ≤ n ∧ n ≤ 64 ∧ n ≤ s + 1 ∧ s + 1 ≤ cap * 8 := by
  rw [geometryOk_iff]
  refine and_congr_right fun h1 => and_congr_right fun _ => ⟨fun h => ?_, fun h i hi => ?_⟩
  · have hfirst := h 0 (by omega)
    have hlast := h (n - 1) (by omega)
    simp only [srcIndex] at hfirst hlast
    omega
  · simp only [srcIndex]
    omega

/-- Settles O7, by the closed form of each order. -/
theorem boundsCheckInClosedForm : Obligations.BoundsCheckInClosedForm :=
  fun _ _ _ => ⟨geometryOk_intel_iff, geometryOk_motorola_iff⟩

/-- Rule R37 for the bounds check. -/
theorem geometryOk_motorola_eq_intel {cap s n : Nat} (hn : n ≤ s + 1) :
    geometryOk cap .motorola s n = geometryOk cap .intel (s + 1 - n) n := by
  rw [Bool.eq_iff_iff, geometryOk_motorola_iff, geometryOk_intel_iff]
  omega

/-! ### The loops of EXTRACT and INSERT, raw bit by raw bit -/

/-- Raw bit `j` of a field is the value bit of one signal bit, whose payload index is `fieldIndex` (R33). -/
theorem exists_signalBit {o : ByteOrder} {n j : Nat} (s : Nat) (hj : j < n) :
    ∃ i < n, valueBit o n i = j ∧ (srcIndex o s i).toNat = fieldIndex o s n j := by
  cases o with
  | intel => exact ⟨j, hj, rfl, by simp only [srcIndex, fieldIndex]; omega⟩
  | motorola =>
    refine ⟨n - 1 - j, by omega, ?_, ?_⟩
    · simp only [valueBit]
      omega
    · simp only [srcIndex, fieldIndex]
      omega

/-- Rule R37 for the field's indices. -/
theorem fieldIndex_motorola_eq_intel {s n j : Nat} (hn : n ≤ s + 1) (hj : j < n) :
    fieldIndex .motorola s n j = fieldIndex .intel (s + 1 - n) n j := by
  simp only [fieldIndex]
  omega

/-- With a legal geometry the touched indices are the field's indices. -/
theorem natCast_mem_touched_iff {cap s n b : Nat} {o : ByteOrder} (h : geometryOk cap o s n = true) :
    (b : Int) ∈ touched o s n ↔ ∃ j < n, fieldIndex o s n j = b := by
  obtain ⟨-, -, hin⟩ := geometryOk_iff.mp h
  rw [mem_touched]
  constructor
  · rintro ⟨i, hi, hib⟩
    refine ⟨valueBit o n i, valueBit_lt hi, ?_⟩
    obtain ⟨k, hk, hki, hkf⟩ := exists_signalBit (o := o) s (valueBit_lt (o := o) hi)
    rw [← hkf, valueBit_injective hk hi hki, hib, Int.toNat_natCast]
  · rintro ⟨j, hj, rfl⟩
    obtain ⟨i, hi, -, hif⟩ := exists_signalBit (o := o) s hj
    have hnonneg := (hin i hi).1
    exact ⟨i, hi, by omega⟩

/-- EXTRACT's value, raw bit by raw bit: the payload bit at the field's index, and zero at `n` and above (R70). -/
theorem extractBits_getLsbD {cap s n : Nat} {o : ByteOrder} (w : Word64) (hn : n ≤ 64) (j : Nat) :
    (extractBits ⟨cap, w⟩ o s n).getLsbD j = (decide (j < n) && w.getLsbD (fieldIndex o s n j)) := by
  obtain ⟨hfield, habove⟩ := extractBits_spec (cap := cap) (s := s) (o := o) w hn
  by_cases hj : j < n
  · obtain ⟨i, hi, hij, hif⟩ := exists_signalBit (o := o) s hj
    have hbit := hfield i hi
    rw [hij, hif] at hbit
    simpa [hj] using hbit
  · simpa [hj] using habove j (by omega)

/-- INSERT's payload at a field's index is the raw value's bit (R71). -/
theorem insertBits_getLsbD_fieldIndex {cap s n j : Nat} {o : ByteOrder} (w v : Word64) (hcap : cap ≤ 8)
    (h : geometryOk cap o s n = true) (hj : j < n) :
    (insertBits ⟨cap, w⟩ o s n v).field.getLsbD (fieldIndex o s n j) = v.getLsbD j := by
  obtain ⟨i, hi, hij, hif⟩ := exists_signalBit (o := o) s hj
  rw [← hif, (insertBits_spec w v hcap h).1 i hi, hij]

/-! ### EXTRACT reads the field alone -/

/-- EXTRACT's value depends on the payload bits at the field's indices alone. -/
theorem extractBits_congr {cap cap' s s' n : Nat} {o o' : ByteOrder} {w w' : Word64} (hn : n ≤ 64)
    (h : ∀ j < n, w.getLsbD (fieldIndex o s n j) = w'.getLsbD (fieldIndex o' s' n j)) :
    extractBits ⟨cap, w⟩ o s n = extractBits ⟨cap', w'⟩ o' s' n := by
  refine BitVec.eq_of_getLsbD_eq fun j _ => ?_
  rw [extractBits_getLsbD w hn, extractBits_getLsbD w' hn]
  by_cases hj : j < n
  · rw [h j hj]
  · simp [hj]

/-- Settles O13: the bounds check reads no payload, and a legal geometry's value reads the touched bits alone. -/
theorem extractReadsNothingElse : Obligations.ExtractReadsNothingElse := by
  intro c s t r q hs ht _ hagree
  rw [execExtract_eq hs, execExtract_eq ht]
  by_cases hg : geometryOk c.cap c.order c.startBit c.length = true
  · obtain ⟨-, hlen, -⟩ := geometryOk_iff.mp hg
    have hvalue : extractBits ⟨c.cap, r.payloadIn⟩ c.order c.startBit c.length =
        extractBits ⟨c.cap, q.payloadIn⟩ c.order c.startBit c.length :=
      extractBits_congr hlen fun j hj => hagree _ ((natCast_mem_touched_iff hg).mpr ⟨j, hj, rfl⟩)
    rw [if_pos hg, if_pos hg, hvalue]
    exact ⟨_, rfl, rfl⟩
  · rw [if_neg hg, if_neg hg]
    exact ⟨_, rfl, rfl⟩

/-! ### Motorola order is Intel order from the other end -/

/-- Rule R37 for EXTRACT's loop. -/
theorem extractBits_motorola_eq_intel {s n : Nat} (p : Payload) (hlen : n ≤ 64) (hn : n ≤ s + 1) :
    extractBits p .motorola s n = extractBits p .intel (s + 1 - n) n :=
  extractBits_congr hlen fun j hj => by rw [fieldIndex_motorola_eq_intel hn hj]

/-- INSERT's payload depends on the geometry through the field's indices alone. -/
theorem insertBits_field_congr {cap s s' n : Nat} {o o' : ByteOrder} (w v : Word64) (hcap : cap ≤ 8)
    (h : geometryOk cap o s n = true) (h' : geometryOk cap o' s' n = true)
    (hindex : ∀ j < n, fieldIndex o s n j = fieldIndex o' s' n j) :
    (insertBits ⟨cap, w⟩ o s n v).field = (insertBits ⟨cap, w⟩ o' s' n v).field := by
  refine BitVec.eq_of_getLsbD_eq fun b _ => ?_
  by_cases hb : ∃ j < n, fieldIndex o s n j = b
  · obtain ⟨j, hj, rfl⟩ := hb
    rw [insertBits_getLsbD_fieldIndex w v hcap h hj, hindex j hj, insertBits_getLsbD_fieldIndex w v hcap h' hj]
  · have hb' : ¬ ∃ j < n, fieldIndex o' s' n j = b := fun ⟨j, hj, e⟩ => hb ⟨j, hj, (hindex j hj).trans e⟩
    rw [(insertBits_spec w v hcap h).2 b (mt (natCast_mem_touched_iff h).mp hb),
      (insertBits_spec w v hcap h').2 b (mt (natCast_mem_touched_iff h').mp hb')]

/-- Settles O19: outside a transaction both are refused; in one, both orders pass or fail the bounds check together and,
where they pass, walk the same field. -/
theorem motorolaIsIntelFromTheOtherEnd : Obligations.MotorolaIsIntelFromTheOtherEnd := by
  intro c s hcap _ hn
  cases hs : s.transaction with
  | none => simp only [exec_idle hs, and_self]
  | some r =>
    simp only [execExtract_eq hs, execInsert_eq hs, geometryOk_motorola_eq_intel hn]
    by_cases hi : geometryOk c.cap .intel (c.startBit + 1 - c.length) c.length = true
    · have hm : geometryOk c.cap .motorola c.startBit c.length = true := (geometryOk_motorola_eq_intel hn).trans hi
      obtain ⟨-, hlen, -⟩ := geometryOk_iff.mp hm
      rw [extractBits_motorola_eq_intel _ hlen hn,
        insertBits_field_congr _ _ hcap hm hi fun j hj => fieldIndex_motorola_eq_intel hn hj]
      exact ⟨rfl, rfl⟩
    · simp only [if_neg hi, and_self]

/-! ### Transactions in issue order -/

/-- A request that is answered on its own is answered so in every state in which it is in progress (R10). -/
theorem step_of_replyTo {s : State} {r : Request} {p : Response} (hs : s.transaction = some r)
    (hn : s.input.head? ≠ some .reset) (h : replyTo r = .answered p) : step s = .next (s.complete p) := by
  have halone : ({ State.reset with transaction := some r } : State).transaction = some r := rfl
  rw [replyTo, step_busy halone (by simp)] at h
  rw [step_busy hs hn]
  cases hd : decode r.cmd with
  | rejected e => simp [hd, reply] at h
  | command i =>
    simp only [hd] at h ⊢
    rcases exec_cases i r with ⟨p', -, hp⟩ | ⟨e, -, he⟩
    · rw [hp _ halone] at h
      obtain rfl : p' = p := by simpa [reply] using h
      exact hp s hs
    · rw [he _ halone] at h
      simp [reply] at h

/-- A run takes a step that goes on and continues from there. -/
theorem run_succ_of_step {M : Host.Core} {s t : M.State} (h : M.step s = .next t) (k : Nat) :
    M.run (k + 1) s = M.run k t := by
  rw [Host.Core.run, h]

/-- An idle CORE takes two steps for an answerable request with only requests behind it: it takes it and answers it. -/
theorem run_two_of_replyTo {s : State} {r : Request} {p : Response} {rs : List Request} (hs : s.transaction = none)
    (hi : s.input = (r :: rs).map .request) (h : replyTo r = .answered p) (k : Nat) :
    Host.Core.run core (k + 2) s = Host.Core.run core k ⟨none, rs.map .request, s.responses ++ [p]⟩ := by
  have htake : step s = .next ⟨some r, rs.map .request, s.responses⟩ := by
    rw [step_idle hs (by simp [hi])]
    simp [takeInput, hi]
  have hanswer := step_of_replyTo (s := ⟨some r, rs.map .request, s.responses⟩) rfl (by cases rs <;> simp) h
  exact (run_succ_of_step (M := core) htake (k + 1)).trans (run_succ_of_step (M := core) hanswer k)

/-- Settles O51, by induction on the list of requests: the two steps of the first leave CORE idle with the rest to come. -/
theorem requestsAreAnsweredInIssueOrder : Obligations.RequestsAreAnsweredInIssueOrder := by
  intro rs ps hall
  induction hall with
  | nil =>
    intro s hs hi
    obtain ⟨transaction, input, responses⟩ := s
    obtain rfl : transaction = none := hs
    obtain rfl : input = [] := hi
    simp [Host.Core.run]
  | @cons r p rs ps hr _ ih =>
    intro s hs hi
    calc Host.Core.run core (2 * (r :: rs).length) s
        = Host.Core.run core (2 * rs.length) ⟨none, rs.map .request, s.responses ++ [p]⟩ :=
          run_two_of_replyTo hs hi hr _
      _ = .next ⟨none, [], (s.responses ++ [p]) ++ ps⟩ := ih _ rfl rfl
      _ = .next ⟨none, [], s.responses ++ p :: ps⟩ := by simp

end Sys2Proof.Machine

/-! PROOFS. The statements of `30_encoding.md`: the command word and its slices, what the decoder answers, the status codes,
the ignored fields, and that no response is illegal. -/

namespace Sys2Proof

/-! ### The slices of a command word -/

theorem slice_lt (w : Word32) (lo width : Nat) : slice w lo width < 2 ^ width :=
  Nat.mod_lt _ (Nat.two_pow_pos width)

theorem slice_and (v w : Word32) (lo width : Nat) :
    slice (v &&& w) lo width = slice v lo width &&& slice w lo width := by
  simp only [slice, BitVec.toNat_and, Nat.and_div_two_pow, Nat.and_mod_two_pow]

theorem toNat_extractLsb'_eq_slice (w : Word32) (lo width : Nat) : (w.extractLsb' lo width).toNat = slice w lo width := by
  rw [BitVec.extractLsb'_toNat, Nat.shiftRight_eq_div_pow, slice]

theorem getLsbD_eq_slice (w : Word32) (k : Nat) : w.getLsbD k = decide (slice w k 1 = 1) := by
  rw [BitVec.getLsbD, Nat.testBit_eq_decide_div_mod_eq, slice, pow_one]

/-- A word is the sum of the slices of rule R50, each at its place. -/
theorem toNat_eq_slices (w : Word32) :
    w.toNat = slice w 0 2 + slice w 2 1 * 2 ^ 2 + slice w 3 1 * 2 ^ 3 + slice w 4 4 * 2 ^ 4 + slice w 8 6 * 2 ^ 8 +
      slice w 14 2 * 2 ^ 14 + slice w 16 7 * 2 ^ 16 + slice w 23 9 * 2 ^ 23 := by
  have hw := w.isLt
  simp only [slice]
  omega

theorem reservedClear_iff (w : Word32) : reservedClear w = true ↔ slice w 14 2 = 0 ∧ slice w 23 9 = 0 := by
  simp [reservedClear]

/-! ### Commands and their fields -/

theorem CmdFields.fits_iff (c : CmdFields) : c.fits = true ↔ c.cap < 16 ∧ c.startBit ≤ 63 ∧ c.length < 128 := by
  simp [CmdFields.fits, and_assoc]

/-- A command is well formed when its fields fit and, for the operations that read a capacity, the capacity is legal. -/
theorem Instr.wf_iff (i : Instr) : i.wf = true ↔ i.fields.fits = true ∧ (i.op ≤ 1 → i.fields.capLegal = true) := by
  cases i <;> simp [Instr.wf, Instr.fields, Instr.op]

theorem Instr.op_lt_four (i : Instr) : i.op < 4 := by
  cases i <;> simp [Instr.op]

/-- A command is its operation and its fields. -/
@[simp] theorem ofOp_op_fields (i : Instr) : ofOp i.op i.fields = i := by
  cases i <;> rfl

@[simp] theorem fields_ofOp (op : Nat) (c : CmdFields) : (ofOp op c).fields = c := by
  unfold ofOp
  split <;> rfl

theorem op_ofOp {op : Nat} (h : op < 4) (c : CmdFields) : (ofOp op c).op = op := by
  interval_cases op <;> rfl

theorem bitOfOrder_lt_two (o : ByteOrder) : bitOfOrder o < 2 := by
  cases o <;> decide

@[simp] theorem orderOfBit_bitOfOrder (o : ByteOrder) : orderOfBit (bitOfOrder o) = o := by
  cases o <;> rfl

theorem bitOfOrder_orderOfBit {b : Nat} (h : b < 2) : bitOfOrder (orderOfBit b) = b := by
  interval_cases b <;> rfl

theorem orderOfBit_eq_ite {b : Nat} (h : b < 2) : orderOfBit b = if b = 1 then .motorola else .intel := by
  interval_cases b <;> rfl

theorem toNat_decide_eq_one {b : Nat} (h : b < 2) : (decide (b = 1)).toNat = b := by
  interval_cases b <;> rfl

/-- The fields read off a word fit: each is a slice of its width. -/
theorem fieldsOf_fits (w : Word32) : (fieldsOf w).fits = true :=
  (CmdFields.fits_iff _).mpr ⟨slice_lt w 4 4, Nat.le_of_lt_succ (slice_lt w 8 6), slice_lt w 16 7⟩

/-! ### The encoder -/

/-- Fields that fit are below the bound of their width (R50). -/
theorem field_bounds {i : Instr} (h : i.fields.fits = true) :
    i.op < 4 ∧ bitOfOrder i.fields.order < 2 ∧ i.fields.isSigned.toNat < 2 ∧ i.fields.cap < 16 ∧
      i.fields.startBit ≤ 63 ∧ i.fields.length < 128 :=
  ⟨i.op_lt_four, bitOfOrder_lt_two _, Bool.toNat_lt _, (CmdFields.fits_iff _).mp h⟩

/-- The word of fields that fit is the sum of the fields, each at its place (R50): nothing wraps. -/
theorem toNat_encode {i : Instr} (h : i.fields.fits = true) :
    (encode i).toNat = i.op + bitOfOrder i.fields.order * 2 ^ 2 + i.fields.isSigned.toNat * 2 ^ 3 + i.fields.cap * 2 ^ 4 +
      i.fields.startBit * 2 ^ 8 + i.fields.length * 2 ^ 16 := by
  have hbounds := field_bounds h
  simp only [encode, BitVec.toNat_ofNat]
  omega

/-- Every slice of an encoded command is the field that stands there; the reserved slices are zero (R50, R51). -/
theorem slice_encode {i : Instr} (h : i.fields.fits = true) :
    slice (encode i) 0 2 = i.op ∧ slice (encode i) 2 1 = bitOfOrder i.fields.order ∧
    slice (encode i) 3 1 = i.fields.isSigned.toNat ∧ slice (encode i) 4 4 = i.fields.cap ∧
    slice (encode i) 8 6 = i.fields.startBit ∧ slice (encode i) 14 2 = 0 ∧ slice (encode i) 16 7 = i.fields.length ∧
    slice (encode i) 23 9 = 0 := by
  have hbounds := field_bounds h
  simp only [slice, toNat_encode h]
  omega

theorem reservedClear_encode {i : Instr} (h : i.fields.fits = true) : reservedClear (encode i) = true := by
  obtain ⟨-, -, -, -, -, hlow, -, hhigh⟩ := slice_encode h
  exact (reservedClear_iff _).mpr ⟨hlow, hhigh⟩

/-- The fields read off an encoded command are that command's. -/
theorem fieldsOf_encode {i : Instr} (h : i.fields.fits = true) : fieldsOf (encode i) = i.fields := by
  obtain ⟨-, horder, hsigned, hcap, hstart, -, hlength, -⟩ := slice_encode h
  simp [fieldsOf, horder, hsigned, hcap, hstart, hlength]

/-! ### The decoder -/

/-- The decoder in two checks: the reserved bits, then whether the command the slices spell is well formed. -/
theorem decode_eq (w : Word32) :
    decode w =
      if reservedClear w then
        if (ofOp (slice w 0 2) (fieldsOf w)).wf then .command (ofOp (slice w 0 2) (fieldsOf w))
        else .rejected .capAboveEight
      else .rejected .reservedBits := by
  have hfits : (ofOp (slice w 0 2) (fieldsOf w)).fields.fits = true := by
    rw [fields_ofOp]
    exact fieldsOf_fits w
  unfold decode
  generalize ofOp (slice w 0 2) (fieldsOf w) = i at *
  cases i <;> simp_all [Instr.wf, Instr.fields]

/-- A word decodes to a command exactly when its reserved bits are clear, its slices spell the command, and the command is
well formed (R51, R52, R55). -/
theorem decode_eq_command_iff (w : Word32) (i : Instr) :
    decode w = .command i ↔ reservedClear w = true ∧ ofOp (slice w 0 2) (fieldsOf w) = i ∧ i.wf = true := by
  rw [decode_eq]
  split
  next hclear =>
    split
    next hwf => exact ⟨fun h => ⟨hclear, Decoded.command.inj h, Decoded.command.inj h ▸ hwf⟩, fun ⟨_, h, _⟩ => h ▸ rfl⟩
    next hwf => exact iff_of_false nofun fun ⟨_, h, hi⟩ => hwf (h ▸ hi)
  next hclear => exact iff_of_false nofun fun ⟨h, _⟩ => hclear h

/-- Settles O1: the reserved slices of the encoded word are zero, and the other slices are the command's fields. -/
theorem decodeOfEncode : Obligations.DecodeOfEncode := by
  intro i hwf
  have hfits := ((Instr.wf_iff i).mp hwf).1
  refine (decode_eq_command_iff _ _).mpr ⟨reservedClear_encode hfits, ?_, hwf⟩
  rw [(slice_encode hfits).1, fieldsOf_encode hfits, ofOp_op_fields]

/-- Settles O2: word and encoding are the same sum of slices, the reserved ones zero. -/
theorem encodeOfDecode : Obligations.EncodeOfDecode := by
  intro w i h
  obtain ⟨hclear, rfl, hwf⟩ := (decode_eq_command_iff w i).mp h
  obtain ⟨hlow, hhigh⟩ := (reservedClear_iff w).mp hclear
  refine ⟨hwf, BitVec.eq_of_toNat_eq ?_⟩
  rw [toNat_encode ((Instr.wf_iff _).mp hwf).1, toNat_eq_slices w, fields_ofOp, op_ofOp (slice_lt w 0 2), hlow, hhigh]
  simp only [fieldsOf, bitOfOrder_orderOfBit (slice_lt w 2 1), toNat_decide_eq_one (slice_lt w 3 1), zero_mul, add_zero]

/-! ### Match and mask -/

/-- Rule R52's mask keeps `OP` and the reserved slices and clears every other. -/
theorem toNat_and_mask (w : Word32) :
    (w &&& 0xFF80C003#32).toNat = slice w 0 2 + slice w 14 2 * 2 ^ 14 + slice w 23 9 * 2 ^ 23 := by
  have hop : slice 0xFF80C003#32 0 2 = 2 ^ 2 - 1 := by decide
  have hlow : slice 0xFF80C003#32 14 2 = 2 ^ 2 - 1 := by decide
  have hhigh : slice 0xFF80C003#32 23 9 = 2 ^ 9 - 1 := by decide
  have hfields : slice 0xFF80C003#32 2 1 = 0 ∧ slice 0xFF80C003#32 3 1 = 0 ∧ slice 0xFF80C003#32 4 4 = 0 ∧
      slice 0xFF80C003#32 8 6 = 0 ∧ slice 0xFF80C003#32 16 7 = 0 := by decide
  rw [toNat_eq_slices]
  simp only [slice_and, hop, hlow, hhigh, hfields, Nat.and_zero, Nat.and_two_pow_sub_one_of_lt_two_pow (slice_lt w _ _),
    zero_mul, add_zero]

/-- A word matches `k` under rule R52's mask exactly when its `OP` is `k` and its reserved bits are clear. -/
theorem and_mask_eq_iff (w : Word32) {k : Nat} (hk : k < 4) :
    w &&& 0xFF80C003#32 = BitVec.ofNat 32 k ↔ reservedClear w = true ∧ slice w 0 2 = k := by
  have hop := slice_lt w 0 2
  rw [← BitVec.toNat_inj, toNat_and_mask, BitVec.toNat_ofNat, reservedClear_iff]
  omega

/-- A word spells the operation of its `OP`, when its reserved bits are clear and, for EXTRACT and INSERT, `CAP` is at most
8 (R52, R54). -/
theorem exists_decode_op_iff (w : Word32) (k : Nat) :
    (∃ i, decode w = .command i ∧ i.op = k) ↔
      (reservedClear w = true ∧ slice w 0 2 = k) ∧ (k ≤ 1 → slice w 4 4 ≤ 8) := by
  have hop := op_ofOp (slice_lt w 0 2) (fieldsOf w)
  have hwf : (ofOp (slice w 0 2) (fieldsOf w)).wf = true ↔ (slice w 0 2 ≤ 1 → slice w 4 4 ≤ 8) := by
    rw [Instr.wf_iff, fields_ofOp, hop]
    simp [fieldsOf_fits, CmdFields.capLegal, show (fieldsOf w).cap = slice w 4 4 from rfl]
  simp only [decode_eq_command_iff]
  constructor
  · rintro ⟨i, ⟨hclear, rfl, hi⟩, rfl⟩
    rw [hop]
    exact ⟨⟨hclear, rfl⟩, hwf.mp hi⟩
  · rintro ⟨⟨hclear, rfl⟩, hcap⟩
    exact ⟨_, ⟨hclear, rfl, hwf.mpr hcap⟩, hop⟩

/-- Settles O3: both sides speak of the same slices. -/
theorem wordSpellsOperation : Obligations.WordSpellsOperation := by
  refine ⟨fun w k hk => ?_, fun _ i _ => i.op_lt_four⟩
  rw [exists_decode_op_iff, and_mask_eq_iff w hk, toNat_extractLsb'_eq_slice]

/-- Settles O4: the command of a word is `ofOp` and `fieldsOf` of its slices. -/
theorem commandFieldsAreSlices : Obligations.CommandFieldsAreSlices := by
  intro w i h
  obtain ⟨-, rfl, -⟩ := (decode_eq_command_iff w i).mp h
  rw [fields_ofOp, op_ofOp (slice_lt w 0 2)]
  refine ⟨(toNat_extractLsb'_eq_slice w 0 2).symm, ?_, (getLsbD_eq_slice w 3).symm,
    (toNat_extractLsb'_eq_slice w 4 4).symm, (toNat_extractLsb'_eq_slice w 8 6).symm,
    (toNat_extractLsb'_eq_slice w 16 7).symm⟩
  simp only [getLsbD_eq_slice, decide_eq_true_eq]
  exact orderOfBit_eq_ite (slice_lt w 2 1)

/-! ### The assembler -/

/-- A line in the ranges of rule R59 spells a well-formed command: a field that it does not name is 0. -/
theorem AsmLine.instr_wf {l : AsmLine} (h : l.wf = true) : l.instr.wf = true := by
  cases l <;> simp [AsmLine.wf, AsmLine.instr, Instr.wf, CmdFields.fits, CmdFields.capLegal] at h ⊢ <;> omega

/-- A line in its ranges assembles to a word that decodes to the line's command. -/
theorem decode_assemble {l : AsmLine} (h : l.wf = true) : decode l.assemble = .command l.instr :=
  decodeOfEncode _ (AsmLine.instr_wf h)

/-- Settles O5: an assembled line is the encoding of the line's command. -/
theorem assembledLineDecodes : Obligations.AssembledLineDecodes :=
  ⟨fun _ _ _ _ => decode_assemble, fun _ _ _ _ => decode_assemble, fun _ _ => decode_assemble,
    fun _ _ => decode_assemble⟩

end Sys2Proof

namespace Sys2Proof.Machine

/-! ### The converter's arithmetic meets no NaN -/

/-- A packed rounded ratio is a finite value or an infinity. -/
theorem classify_roundMag_ne_nan (s : Bool) (num den : Nat) : classify (packFloat s (roundMag num den)) ≠ .nan := by
  rw [classify_roundMag]
  split <;> simp

/-- A product of powers of two below `2 ^ c` lies below the difference of any greater power and `2 ^ c`. -/
theorem two_pow_mul_lt_sub {a b c d : Nat} (hab : a + b < c) (hcd : c < d) : 2 ^ a * 2 ^ b < 2 ^ d - 2 ^ c := by
  have hprod : 2 ^ a * 2 ^ b < 2 ^ c := pow_add 2 a b ▸ Nat.pow_lt_pow_right one_lt_two hab
  have hdouble : 2 ^ c * 2 ≤ 2 ^ d := Nat.pow_le_pow_right two_pos hcd
  omega

/-- An integer of at most 2^64 in magnitude converts to a finite value (R83). -/
theorem isFinite_intToF64 {k : Int} (h : k.natAbs ≤ 2 ^ 64) : isFinite (intToF64 k) = true := by
  have hbelow : k.natAbs * oneMag < (2 ^ 2098 - 2 ^ 2044) * 1 := by
    rw [mul_one, oneMag, pow2_eq]
    calc k.natAbs * 2 ^ 1074 ≤ 2 ^ 64 * 2 ^ 1074 := Nat.mul_le_mul_right _ h
      _ < 2 ^ 2098 - 2 ^ 2044 := two_pow_mul_lt_sub (by decide) (by decide)
  exact isFinite_of_classify (classify_packFloat_finite _ _ ((roundMag_overflow _ 1 one_pos).mpr hbelow))

/-- The numeric value of a raw value of at most 64 bits is at most 2^64 in magnitude (R84). -/
theorem natAbs_numeric_le (r : Word64) {n : Nat} (hn : n ≤ 64) (g : Bool) : (numeric r n g).natAbs ≤ 2 ^ 64 := by
  have hlow : lowBits r n < 2 ^ n := Nat.mod_lt _ (Nat.two_pow_pos n)
  have hpow : 2 ^ n ≤ 2 ^ 64 := Nat.pow_le_pow_right two_pos hn
  have hcast : ((2 : Int) ^ n) = ((2 ^ n : Nat) : Int) := by simp
  unfold numeric
  rw [hcast]
  split <;> omega

/-- A product of finite values is no NaN: it may overflow to an infinity (R81). -/
theorem classify_fmul_ne_nan {a b : F64} (ha : isFinite a = true) (hb : isFinite b = true) :
    classify (fmul a b) ≠ .nan := by
  unfold fmul
  rw [classify_of_isFinite ha, classify_of_isFinite hb]
  exact classify_roundMag_ne_nan _ _ _

/-- A sum of two finite values is no NaN. -/
theorem classify_addFinite_ne_nan (s : Bool) (m : Nat) (t : Bool) (k : Nat) : classify (addFinite s m t k) ≠ .nan := by
  unfold addFinite
  dsimp only
  split
  · rw [classify_packFloat_finite _ 0 (by decide)]
    exact nofun
  · exact classify_roundMag_ne_nan _ _ _

/-- Adding a finite value makes no NaN: an infinity stays one (R81, assumption 6). -/
theorem classify_fadd_ne_nan {a b : F64} (ha : classify a ≠ .nan) (hb : isFinite b = true) :
    classify (fadd a b) ≠ .nan := by
  unfold fadd
  rw [classify_of_isFinite hb]
  cases hc : classify a with
  | nan => exact absurd hc ha
  | infinite s => simp [classify_packFloat_infinity]
  | finite s m => exact classify_addFinite_ne_nan _ _ _ _

/-- The scaled value of a raw value of at most 64 bits is no NaN, though it may overflow (R85, R88). -/
theorem classify_scaleUp_ne_nan {k : Int} {factor offset : F64} (hk : k.natAbs ≤ 2 ^ 64)
    (hfactor : isFinite factor = true) (hoffset : isFinite offset = true) :
    classify (scaleUp k factor offset) ≠ .nan :=
  classify_fadd_ne_nan (classify_fmul_ne_nan (isFinite_intToF64 hk) hfactor) hoffset

/-- An infinity lies beyond one of two finite bounds: the negative one is below `b`, the positive one above. -/
theorem flt_of_infinite {x b : F64} {s : Bool} (hx : classify x = .infinite s) (hb : isFinite b = true) :
    flt x b = s ∧ flt b x = !s := by
  simp [flt, hx, classify_of_isFinite hb]

/-- Between finite bounds the clamp turns everything but a NaN into a finite value (R86, R88). -/
theorem isFinite_clamp {x mn mx : F64} (hx : classify x ≠ .nan) (hmn : isFinite mn = true) (hmx : isFinite mx = true) :
    isFinite (clamp x mn mx).1 = true := by
  unfold clamp
  split
  next => exact hmn
  next hlow =>
    split
    next => exact hmx
    next hhigh =>
      cases hc : classify x with
      | nan => exact absurd hc hx
      | finite s m => exact isFinite_of_classify hc
      | infinite s =>
        rw [(flt_of_infinite hc hmn).1] at hlow
        rw [fgt, (flt_of_infinite hc hmx).2] at hhigh
        cases s <;> simp at hlow hhigh

/-! ### Every response is legal -/

/-- The value 3 of `STATUS` is never produced (R57). -/
theorem resultStatus_ne_three (x : Result) : resultStatus x ≠ 3 := by
  cases x with
  | fault f => cases f <;> simp [resultStatus, faultCode]
  | _ => simp [resultStatus]

/-- Settles O41, one outcome at a time. -/
theorem statusCodes : Obligations.StatusCodes := by
  intro n p
  cases hx : p.result with
  | fault f => cases f <;> simp [responseFields, hx, resultStatus, faultCode]
  | _ => simp [responseFields, hx, resultStatus]

/-- A response that produces no `PHYS_OUT` is legal. -/
theorem legal_of_no_physOut {p : Response} (h : resultPhysOut p.result = none) : p.legal :=
  ⟨resultStatus_ne_three _, fun y hy => by simp [h] at hy⟩

/-- A response of TOPHYS with a finite `PHYS_OUT` is legal. -/
theorem legal_of_finite_physOut {p : Response} {y : F64} (h : resultPhysOut p.result = some y) (hy : isFinite y = true) :
    p.legal :=
  ⟨resultStatus_ne_three _, fun _ hz => Option.some.inj (h.symm.trans hz) ▸ hy⟩

/-- TOPHYS completes with a legal response: inside its domain the scaled value is no NaN, so the clamp makes it finite. -/
theorem execTophys_next_legal {c : CmdFields} {s t : State} {r : Request} (hs : s.transaction = some r)
    (h : exec (.tophys c) s = .next t) : ∃ p : Response, p.legal ∧ t = s.complete p := by
  rw [execTophys_eq hs] at h
  split at h
  next hlen =>
    split at h
    next => cases h
    next hdomain =>
      cases h
      have hd := (domainRefusal_tophys r).mp hdomain
      simp only [tophysDomain, Bool.and_eq_true] at hd
      obtain ⟨⟨⟨⟨hfactor, hoffset⟩, hmn⟩, hmx⟩, -⟩ := hd
      have hn : c.length ≤ 64 := by
        simp only [lengthOk, Bool.and_eq_true, decide_eq_true_eq] at hlen
        exact hlen.2
      have hscaled := classify_scaleUp_ne_nan (natAbs_numeric_le r.rawIn hn c.isSigned) hfactor hoffset
      exact ⟨_, legal_of_finite_physOut rfl (isFinite_clamp hscaled hmn hmx), rfl⟩
  next =>
    cases h
    exact ⟨_, legal_of_no_physOut rfl, rfl⟩

/-- Whatever the operation, it completes with a legal response; only TOPHYS produces a `PHYS_OUT` (R20). -/
theorem exec_next_legal {i : Instr} {s t : State} {r : Request} (hs : s.transaction = some r)
    (h : exec i s = .next t) : ∃ p : Response, p.legal ∧ t = s.complete p := by
  cases i with
  | tophys c => exact execTophys_next_legal hs h
  | extract c =>
    rw [execExtract_eq hs] at h
    split at h <;> cases h <;> exact ⟨_, legal_of_no_physOut rfl, rfl⟩
  | insert c =>
    rw [execInsert_eq hs] at h
    split at h <;> cases h <;> exact ⟨_, legal_of_no_physOut rfl, rfl⟩
  | toraw c =>
    rw [execToraw_eq hs] at h
    dsimp only at h
    repeat' split at h
    all_goals cases h
    all_goals exact ⟨_, legal_of_no_physOut rfl, rfl⟩

/-- A legal response keeps the host's responses legal. -/
theorem State.legal.complete {s : State} (h : s.legal) {p : Response} (hp : p.legal) : (s.complete p).legal := by
  intro q hq
  rcases List.mem_append.mp hq with hq | hq
  · exact h q hq
  · exact List.mem_singleton.mp hq ▸ hp

/-- Taking the host's next input answers nothing. -/
@[simp] theorem takeInput_responses (s : State) : (takeInput s).responses = s.responses := by
  unfold takeInput
  split <;> rfl

/-- Settles O52: a reset and an input taken answer nothing, and an operation's one response is legal. -/
theorem stepKeepsResponsesLegal : Obligations.StepKeepsResponsesLegal := by
  intro s t hlegal h
  rw [step_eq] at h
  split at h
  next =>
    cases h
    exact hlegal
  next =>
    split at h
    next r hs =>
      split at h
      next =>
        obtain ⟨p, hp, rfl⟩ := exec_next_legal hs h
        exact hlegal.complete hp
      next => cases h
    next =>
      cases h
      simpa [State.legal] using hlegal

/-! ### Ignored fields -/

/-- Settles O46: no meaning mentions a field that its operation ignores, so both sides unfold to the same term. -/
theorem ignoredFieldsChangeNothing : Obligations.IgnoredFieldsChangeNothing :=
  fun _ _ _ _ _ _ => ⟨rfl, rfl, rfl, rfl, fun _ _ _ _ _ _ _ _ => ⟨rfl, rfl, rfl, rfl⟩⟩

end Sys2Proof.Machine

/-! PROOFS. The statements of `40_bit_codec.md`: the field as a range of payload indices, EXTRACT and INSERT bit by bit and
in closed form, and what one or two INSERTs leave in the payload. -/

namespace Sys2Proof.Machine

/-! ### The two orders, and the legal geometries -/

/-- Settles O9: Intel indices count up from `s` and Motorola indices down, so the two walks meet in their first index. -/
theorem ordersShareOnlyTheStartBit : Obligations.OrdersShareOnlyTheStartBit := by
  intro s n b hn
  simp only [mem_touched, srcIndex]
  constructor
  · rintro ⟨⟨i, -, hi⟩, j, -, hj⟩
    omega
  · rintro rfl
    exact ⟨⟨0, hn, by simp⟩, 0, hn, by simp⟩

/-- How many of the first `m` naturals lie in the range from `lo` to below `hi`. -/
theorem countP_range_eq_sub {p : Nat → Bool} {lo hi : Nat} (hp : ∀ i, p i = true ↔ lo ≤ i ∧ i < hi) (m : Nat) :
    (List.range m).countP p = min m hi - lo := by
  induction m with
  | zero => simp
  | succ m ih =>
    rw [List.range_succ, List.countP_append, ih, List.countP_singleton]
    simp only [hp m]
    split <;> omega

/-- The legal start bits of a length on an 8-byte payload: from 0 on in Intel order, up to 63 in Motorola order (R36). -/
theorem countP_geometryOk (o : ByteOrder) (n : Nat) :
    (List.range 64).countP (fun s => geometryOk 8 o s n) = if n = 0 then 0 else 65 - n := by
  by_cases hn : n = 0
  · simp [hn, geometryOk, lengthOk]
  rw [if_neg hn]
  cases o with
  | intel =>
    rw [countP_range_eq_sub (lo := 0) (hi := 65 - n) fun s => by rw [geometryOk_intel_iff]; omega]
    omega
  | motorola =>
    rw [countP_range_eq_sub (lo := n - 1) (hi := 64) fun s => by rw [geometryOk_motorola_iff]; omega]
    omega

/-- The counts of `countP_geometryOk` add up to 64 + 63 + ... + 1; a length above 64 adds nothing. -/
theorem sum_startBit_counts : ((List.range 128).map fun n => if n = 0 then 0 else 65 - n).sum = 2080 := by
  rw [show 128 = 65 + 63 from rfl, List.range_add, List.map_append, List.sum_append]
  decide

/-- Settles O10: the count for each length, and the sum of the counts. -/
theorem legalGeometriesOfAnEightBytePayload : Obligations.LegalGeometriesOfAnEightBytePayload := by
  intro o
  simp only [countP_geometryOk]
  exact ⟨fun n hn _ => if_neg (by omega), sum_startBit_counts⟩

/-! ### The field as a range of payload indices -/

@[simp] theorem toNat_srcIndex_intel (s i : Nat) : (srcIndex .intel s i).toNat = s + i := by
  simp only [srcIndex]
  omega

@[simp] theorem toNat_srcIndex_motorola (s i : Nat) : (srcIndex .motorola s i).toNat = s - i := by
  simp only [srcIndex]
  omega

/-- With a legal geometry the field's indices count up from the lowest, in both orders (R37). -/
theorem fieldIndex_eq_add {cap s n j : Nat} {o : ByteOrder} (h : geometryOk cap o s n = true) (hj : j < n) :
    fieldIndex o s n j = fieldIndex o s n 0 + j := by
  cases o with
  | intel => rfl
  | motorola =>
    obtain ⟨-, -, hn, -⟩ := geometryOk_motorola_iff.mp h
    simp only [fieldIndex]
    omega

/-- With a legal geometry the touched indices are the `n` indices from the lowest on. -/
theorem natCast_mem_touched_iff_range {cap s n b : Nat} {o : ByteOrder} (h : geometryOk cap o s n = true) :
    (b : Int) ∈ touched o s n ↔ fieldIndex o s n 0 ≤ b ∧ b < fieldIndex o s n 0 + n := by
  rw [natCast_mem_touched_iff h]
  constructor
  · rintro ⟨j, hj, rfl⟩
    rw [fieldIndex_eq_add h hj]
    omega
  · rintro ⟨hlo, hhi⟩
    refine ⟨b - fieldIndex o s n 0, by omega, ?_⟩
    rw [fieldIndex_eq_add h (by omega)]
    omega

/-- INSERT's payload, bit by bit: a touched bit is the raw value's bit at its distance from the field's lowest index, any
other bit is as before (R71). -/
theorem insertBits_getLsbD {cap s n : Nat} {o : ByteOrder} (w v : Word64) (hcap : cap ≤ 8)
    (h : geometryOk cap o s n = true) (b : Nat) :
    (insertBits ⟨cap, w⟩ o s n v).field.getLsbD b =
      if (b : Int) ∈ touched o s n then v.getLsbD (b - fieldIndex o s n 0) else w.getLsbD b := by
  split
  next hb =>
    obtain ⟨j, hj, rfl⟩ := (natCast_mem_touched_iff h).mp hb
    rw [insertBits_getLsbD_fieldIndex w v hcap h hj, fieldIndex_eq_add h hj, Nat.add_sub_cancel_left]
  next hb => exact (insertBits_spec w v hcap h).2 b hb

/-! ### One operation -/

/-- Settles O11: EXTRACT's loop read in each order. -/
theorem extractReadsTheField : Obligations.ExtractReadsTheField := by
  intro c s r hs _
  rw [execExtract_eq hs]
  refine ⟨fun hg => ?_, fun hg => by simp [hg]⟩
  obtain ⟨-, hlen, -⟩ := geometryOk_iff.mp hg
  obtain ⟨hfield, habove⟩ := extractBits_spec (cap := c.cap) (s := c.startBit) (o := c.order) r.payloadIn hlen
  refine ⟨_, if_pos hg, fun ho i hi => ?_, fun ho i hi => ?_, habove⟩
  · simpa [ho, valueBit] using hfield i hi
  · simpa [ho, valueBit] using hfield i hi

/-- Settles O14: INSERT's loop read in each order, and its frame. -/
theorem insertWritesTheFieldOnly : Obligations.InsertWritesTheFieldOnly := by
  intro c s r hs hwf
  rw [execInsert_eq hs]
  refine ⟨fun hg => ?_, fun hg => by simp [hg]⟩
  obtain ⟨hfield, hframe⟩ := insertBits_spec r.payloadIn r.rawIn (cap_le_of_insert_wf hwf) hg
  refine ⟨_, if_pos hg, fun ho i hi => ?_, fun ho i hi => ?_, hframe⟩
  · simpa [ho, valueBit] using hfield i hi
  · simpa [ho, valueBit] using hfield i hi

/-! ### The closed forms -/

/-- The mask of the low `n` bits, bit by bit. -/
theorem getLsbD_lowMask (n j : Nat) :
    (BitVec.ofNat 64 (2 ^ n - 1)).getLsbD j = (decide (j < 64) && decide (j < n)) := by
  rw [BitVec.getLsbD_ofNat, Nat.testBit_two_pow_sub_one]

/-- EXTRACT's value is the payload from the field's lowest index on, cut to `n` bits (R70). -/
theorem extractBits_eq_shift_and_mask {cap s n : Nat} {o : ByteOrder} (w : Word64) (h : geometryOk cap o s n = true) :
    extractBits ⟨cap, w⟩ o s n = (w >>> fieldIndex o s n 0) &&& BitVec.ofNat 64 (2 ^ n - 1) := by
  obtain ⟨-, hlen, -⟩ := geometryOk_iff.mp h
  refine BitVec.eq_of_getLsbD_eq fun j hj => ?_
  rw [extractBits_getLsbD w hlen, BitVec.getLsbD_and, BitVec.getLsbD_ushiftRight, getLsbD_lowMask]
  by_cases hjn : j < n
  · simp [hjn, hj, fieldIndex_eq_add h hjn]
  · simp [hjn]

/-- Settles O12, by the closed form of EXTRACT's loop. -/
theorem extractIsShiftAndMask : Obligations.ExtractIsShiftAndMask := by
  intro c s r hs _ hg
  rw [execExtract_eq hs, if_pos hg, extractBits_eq_shift_and_mask _ hg]

/-- The field's mask, bit by bit: the touched indices. -/
theorem getLsbD_fieldMask {cap s n b : Nat} {o : ByteOrder} (h : geometryOk cap o s n = true) (hb : b < 64) :
    (BitVec.ofNat 64 (2 ^ n - 1) <<< fieldIndex o s n 0).getLsbD b = decide ((b : Int) ∈ touched o s n) := by
  rw [BitVec.getLsbD_shiftLeft, getLsbD_lowMask, Bool.eq_iff_iff]
  simp only [natCast_mem_touched_iff_range h, Bool.and_eq_true, Bool.not_eq_true', decide_eq_true_eq,
    decide_eq_false_iff_not]
  omega

/-- INSERT's payload is the old one outside the field's mask and the shifted value inside it (R71). -/
theorem insertBits_eq_mask_and_merge {cap s n : Nat} {o : ByteOrder} (w v : Word64) (hcap : cap ≤ 8)
    (h : geometryOk cap o s n = true) :
    (insertBits ⟨cap, w⟩ o s n v).field =
      (w &&& ~~~(BitVec.ofNat 64 (2 ^ n - 1) <<< fieldIndex o s n 0)) |||
        ((v <<< fieldIndex o s n 0) &&& (BitVec.ofNat 64 (2 ^ n - 1) <<< fieldIndex o s n 0)) := by
  refine BitVec.eq_of_getLsbD_eq fun b hb => ?_
  rw [insertBits_getLsbD w v hcap h]
  simp only [BitVec.getLsbD_or, BitVec.getLsbD_and, BitVec.getLsbD_not, getLsbD_fieldMask h hb]
  by_cases ht : (b : Int) ∈ touched o s n
  · have hlo := ((natCast_mem_touched_iff_range h).mp ht).1
    have hshift : (v <<< fieldIndex o s n 0).getLsbD b = v.getLsbD (b - fieldIndex o s n 0) := by
      rw [BitVec.getLsbD_shiftLeft, decide_eq_true hb, decide_eq_false (by omega), Bool.not_false, Bool.true_and,
        Bool.true_and]
    simp [ht, hshift]
  · simp [ht, hb]

/-- Settles O15, by the closed form of INSERT's loop. -/
theorem insertIsMaskAndMerge : Obligations.InsertIsMaskAndMerge := by
  intro c s r hs hwf hg
  rw [execInsert_eq hs, if_pos hg, insertBits_eq_mask_and_merge _ _ (cap_le_of_insert_wf hwf) hg]

/-! ### Round trip and repeated INSERTs -/

/-- The round trip (R73): EXTRACT's loop on INSERT's payload gives the value's low `n` bits. -/
theorem toNat_extractBits_insertBits {cap s n : Nat} {o : ByteOrder} (w v : Word64) (hcap : cap ≤ 8)
    (h : geometryOk cap o s n = true) :
    (extractBits ⟨cap, (insertBits ⟨cap, w⟩ o s n v).field⟩ o s n).toNat = v.toNat % 2 ^ n := by
  obtain ⟨-, hlen, -⟩ := geometryOk_iff.mp h
  refine Nat.eq_of_testBit_eq fun j => ?_
  rw [Nat.testBit_mod_two_pow, BitVec.testBit_toNat, BitVec.testBit_toNat, extractBits_getLsbD _ hlen]
  by_cases hj : j < n
  · rw [insertBits_getLsbD_fieldIndex w v hcap h hj]
  · simp [hj]

/-- Settles O16: EXTRACT ignores the signedness, so it walks INSERT's field. -/
theorem extractAfterInsertReturnsTheValue : Obligations.ExtractAfterInsertReturnsTheValue := by
  intro c g s t r q hs ht hwf hg
  rw [execInsert_eq hs, if_pos hg]
  refine ⟨_, rfl, fun hq => ⟨_, (execExtract_eq ht _).trans (if_pos hg), ?_⟩⟩
  rw [hq]
  exact toNat_extractBits_insertBits _ _ (cap_le_of_insert_wf hwf) hg

/-- What the host is told of an INSERT with a legal geometry. -/
theorem reply_execInsert {c : CmdFields} {s : State} {r : Request} (hs : s.transaction = some r)
    (hg : geometryOk c.cap c.order c.startBit c.length = true) :
    reply (exec (.insert c) s) =
      .answered ⟨(insertBits ⟨c.cap, r.payloadIn⟩ c.order c.startBit c.length r.rawIn).field, .insertOk⟩ := by
  rw [execInsert_eq hs, if_pos hg]
  exact reply_next_complete s _

/-- Fields that touch no common index can be written in either order (R74): each bit is written by at most one of the two
loops. -/
theorem insertBits_field_comm {cap cap' s s' n n' : Nat} {o o' : ByteOrder} (w x y : Word64) (hcap : cap ≤ 8)
    (hcap' : cap' ≤ 8) (h : geometryOk cap o s n = true) (h' : geometryOk cap' o' s' n' = true)
    (hdisjoint : ∀ b : Int, b ∈ touched o s n → b ∉ touched o' s' n') :
    (insertBits ⟨cap, (insertBits ⟨cap', w⟩ o' s' n' y).field⟩ o s n x).field =
      (insertBits ⟨cap', (insertBits ⟨cap, w⟩ o s n x).field⟩ o' s' n' y).field := by
  refine BitVec.eq_of_getLsbD_eq fun b _ => ?_
  simp only [insertBits_getLsbD _ _ hcap h, insertBits_getLsbD _ _ hcap' h']
  by_cases hb : (b : Int) ∈ touched o s n
  · rw [if_pos hb, if_neg (hdisjoint b hb), if_pos hb]
  · rw [if_neg hb, if_neg hb]

/-- Settles O17: the witness of both orders is the same payload, by `insertBits_field_comm`. -/
theorem disjointInsertsCommute : Obligations.DisjointInsertsCommute := by
  intro c d x y w hc hd hgc hgd hdisjoint s r
  refine ⟨_, _, _, reply_execInsert rfl hgc, reply_execInsert rfl hgd, reply_execInsert rfl hgd, ?_⟩
  rw [reply_execInsert rfl hgc,
    insertBits_field_comm w x y (cap_le_of_insert_wf hc) (cap_le_of_insert_wf hd) hgc hgd hdisjoint]

/-- Writing a field twice writes the second value alone (R71): both loops write the same bits. -/
theorem insertBits_field_overwrite {cap s n : Nat} {o : ByteOrder} (w x y : Word64) (hcap : cap ≤ 8)
    (h : geometryOk cap o s n = true) :
    (insertBits ⟨cap, (insertBits ⟨cap, w⟩ o s n x).field⟩ o s n y).field = (insertBits ⟨cap, w⟩ o s n y).field := by
  refine BitVec.eq_of_getLsbD_eq fun b _ => ?_
  simp only [insertBits_getLsbD _ _ hcap h]
  by_cases hb : (b : Int) ∈ touched o s n
  · rw [if_pos hb, if_pos hb]
  · rw [if_neg hb, if_neg hb, if_neg hb]

/-- Settles O18, by `insertBits_field_overwrite`. -/
theorem secondInsertOverwritesTheFirst : Obligations.SecondInsertOverwritesTheFirst := by
  intro c x y w hwf hg s r
  refine ⟨_, _, reply_execInsert rfl hg, reply_execInsert rfl hg, ?_⟩
  rw [reply_execInsert rfl hg, insertBits_field_overwrite w x y (cap_le_of_insert_wf hwf) hg]

end Sys2Proof.Machine

/-! PROOFS. The statements of `41_physical_converter.md`: the binary64 primitives on real values, the conversions between
raw values and integers, the clamp, and what TOPHYS and TORAW answer. -/

namespace Sys2Proof.Machine

/-! ### The format's values -/

/-- A finite pattern whose magnitude is `n / d` units of one stands for `n / d`, with its sign (R80). -/
theorem floatValue_eq_signedQ_div {x : F64} {s : Bool} {n d : Nat} (hx : isFinite x = true ∧ floatSign x = s)
    (hm : 0 < d ∧ bitsMag (fieldsNat x) * d = n * oneMag) : floatValue x = signedQ s (n / d) := by
  obtain ⟨⟨hfinite, rfl⟩, hd, h⟩ := And.intro hx hm
  have hd' : (d : ℚ) ≠ 0 := by exact_mod_cast hd.ne'
  have hone : (oneMag : ℚ) ≠ 0 := by exact_mod_cast oneMag_pos.ne'
  rw [floatValue_signedQ (classify_of_isFinite hfinite), ← oneMag_cast]
  congr 1
  rw [div_eq_div_iff hone hd']
  exact_mod_cast h

/-- Settles O20: the exponent field is a slice, and each finite example's magnitude is the stated multiple of one unit. -/
theorem formatExamples : Obligations.FormatExamples := by
  refine ⟨fun x => ?_, ?_, ?_, ?_, ?_, ?_, by decide, by decide, by decide⟩
  · rw [isFinite, decide_eq_true_iff]
    simp [floatExponent, Nat.shiftRight_eq_div_pow]
  · rw [floatValue_eq_signedQ_div (s := false) (n := 1) (d := 1) (by decide) (by decide)]
    norm_num [signedQ]
  · rw [floatValue_eq_signedQ_div (s := true) (n := 1) (d := 1) (by decide) (by decide)]
    norm_num [signedQ]
  · rw [floatValue_eq_signedQ_div (s := false) (n := 1) (d := 2) (by decide) (by decide)]
    norm_num [signedQ]
  · rw [floatValue_eq_signedQ_div (s := false) (n := 300) (d := 1) (by decide) (by decide)]
    norm_num [signedQ]
  · rw [floatValue_eq_signedQ_div (s := false) (n := 1) (d := oneMag) (by decide) (by decide), oneMag_cast, Nat.cast_one]
    rfl

/-! ### The primitives on finite operands -/

theorem signedQ_mul (s t : Bool) (p q : ℚ) : signedQ s p * signedQ t q = signedQ (s ^^ t) (p * q) := by
  cases s <;> cases t <;> simp [signedQ]

theorem signedQ_div (s t : Bool) (p q : ℚ) : signedQ s p / signedQ t q = signedQ (s ^^ t) (p / q) := by
  cases s <;> cases t <;> simp [signedQ, neg_div, div_neg]

/-- An integer is its magnitude with its sign. -/
theorem signedQ_natAbs (z : Int) (q : ℚ) : signedQ (decide (z < 0)) ((z.natAbs : ℚ) / q) = z / q := by
  rw [Nat.cast_natAbs, Int.cast_abs]
  by_cases hz : z < 0
  · have : (z : ℚ) < 0 := by exact_mod_cast hz
    simp [signedQ, hz, abs_of_neg this, neg_div]
  · have : (0 : ℚ) ≤ z := by exact_mod_cast not_lt.mp hz
    simp [signedQ, hz, abs_of_nonneg this]

section
variable {a b : F64} {s t : Bool} {m k : Nat} (ha : classify a = .finite s m) (hb : classify b = .finite t k)
include ha hb

theorem fmul_finite : fmul a b = packFloat (s ^^ t) (roundMag (m * k) oneMag) := by
  simp [fmul, ha, hb]

theorem fadd_finite : fadd a b = addFinite s m t k := by
  simp [fadd, ha, hb]

theorem fdiv_finite (hk : k ≠ 0) : fdiv a b = packFloat (s ^^ t) (roundMag (m * oneMag) k) := by
  simp [fdiv, ha, hb, hk]

end

/-- The other sign stands for the negated number. -/
theorem floatValue_fneg {x : F64} (hx : isFinite x = true) : floatValue (fneg x) = -floatValue x := by
  have hc := classify_of_isFinite hx
  have hn : classify (fneg x) = .finite (!floatSign x) (bitsMag (fieldsNat x)) := by rw [classify_fneg, hc]
  rw [floatValue_signedQ hc, floatValue_signedQ hn]
  cases floatSign x <;> simp [signedQ]

theorem isFinite_fneg {x : F64} (hx : isFinite x = true) : isFinite (fneg x) = true := by
  have hn := classify_fneg x
  rw [classify_of_isFinite hx] at hn
  exact isFinite_of_classify hn

/-- A finite value is zero exactly when its magnitude is. -/
theorem floatValue_eq_zero_iff {x : F64} {s : Bool} {m : Nat} (h : classify x = .finite s m) :
    floatValue x = 0 ↔ m = 0 := by
  rw [floatValue_finite h]
  have hD : (2 : ℚ) ^ 1074 ≠ 0 := pow_ne_zero _ two_ne_zero
  cases s <;> simp [signedMag, hD]

/-! ### Each primitive rounds once -/

/-- A zero rounds to a zero of either sign. -/
theorem roundsTo_zero (s : Bool) : RoundsTo 0 (packFloat s 0) :=
  roundsTo_packFloat s 0 1 one_pos 0 (by simp)

/-- A sum is rounded once: its units of 2^-1074 add up exactly (R81). -/
theorem roundsTo_addFinite (s : Bool) (m : Nat) (t : Bool) (k : Nat) :
    RoundsTo (((signedMag s m + signedMag t k : Int) : ℚ) / 2 ^ 1074) (addFinite s m t k) := by
  unfold addFinite
  dsimp only
  split
  next hz =>
    rw [hz, Int.cast_zero, zero_div]
    exact roundsTo_zero _
  next => exact roundsTo_packFloat _ _ 1 one_pos _ (by rw [Nat.cast_one, one_mul, signedQ_natAbs])

theorem roundsTo_fadd {a b : F64} (ha : isFinite a = true) (hb : isFinite b = true) :
    RoundsTo (floatValue a + floatValue b) (fadd a b) := by
  have hca := classify_of_isFinite ha
  have hcb := classify_of_isFinite hb
  rw [fadd_finite hca hcb, floatValue_finite hca, floatValue_finite hcb, ← add_div, ← Int.cast_add]
  exact roundsTo_addFinite _ _ _ _

theorem roundsTo_fmul {a b : F64} (ha : isFinite a = true) (hb : isFinite b = true) :
    RoundsTo (floatValue a * floatValue b) (fmul a b) := by
  have hca := classify_of_isFinite ha
  have hcb := classify_of_isFinite hb
  rw [fmul_finite hca hcb, floatValue_signedQ hca, floatValue_signedQ hcb, signedQ_mul]
  refine roundsTo_packFloat _ _ _ oneMag_pos _ ?_
  rw [div_mul_div_comm, oneMag_cast, Nat.cast_mul]

theorem roundsTo_fdiv {a b : F64} (ha : isFinite a = true) (hb : isFinite b = true) (hb0 : floatValue b ≠ 0) :
    RoundsTo (floatValue a / floatValue b) (fdiv a b) := by
  have hca := classify_of_isFinite ha
  have hcb := classify_of_isFinite hb
  have hk : bitsMag (fieldsNat b) ≠ 0 := fun h => hb0 ((floatValue_eq_zero_iff hcb).mpr h)
  rw [fdiv_finite hca hcb hk, floatValue_signedQ hca, floatValue_signedQ hcb, signedQ_div]
  refine roundsTo_packFloat _ _ _ (Nat.pos_of_ne_zero hk) _ ?_
  rw [Nat.cast_mul, oneMag_cast, div_div_div_eq, mul_comm ((2 : ℚ) ^ 1074) (bitsMag (fieldsNat b))]

/-- Settles O21: every primitive packs `roundMag` of its exact ratio; a difference is a sum with the sign flipped. -/
theorem arithmeticIsCorrectlyRounded : Obligations.ArithmeticIsCorrectlyRounded := by
  intro a b ha hb
  refine ⟨roundsTo_fmul ha hb, roundsTo_fadd ha hb, ?_, roundsTo_fdiv ha hb⟩
  rw [sub_eq_add_neg, ← floatValue_fneg hb]
  exact roundsTo_fadd ha (isFinite_fneg hb)

/-! ### The signs of results -/

/-- Packing a rounded ratio keeps the sign. -/
theorem floatSign_packFloat_roundMag (s : Bool) (num den : Nat) : floatSign (packFloat s (roundMag num den)) = s :=
  floatSign_packFloat s _ ((roundMag_le_infinity num den).trans_lt (by decide))

/-- Settles O22: products and quotients pack the exclusive or; an exact zero sum packs the conjunction. -/
theorem signsOfResults : Obligations.SignsOfResults := by
  intro a b ha hb
  have hca := classify_of_isFinite ha
  have hcb := classify_of_isFinite hb
  refine ⟨?_, fun hb0 => ?_, fun hsum => ?_⟩
  · rw [fmul_finite hca hcb, floatSign_packFloat_roundMag]
  · rw [fdiv_finite hca hcb (fun h => hb0 ((floatValue_eq_zero_iff hcb).mpr h)), floatSign_packFloat_roundMag]
  · have hz : signedMag (floatSign a) (bitsMag (fieldsNat a)) + signedMag (floatSign b) (bitsMag (fieldsNat b)) = 0 := by
      rw [floatValue_finite hca, floatValue_finite hcb, ← add_div, ← Int.cast_add] at hsum
      rcases div_eq_zero_iff.mp hsum with h | h
      · exact_mod_cast h
      · exact absurd h (pow_ne_zero _ two_ne_zero)
    rw [fadd_finite hca hcb, addFinite, if_pos hz, floatSign_packFloat _ 0 (by decide)]

/-! ### Comparisons -/

/-- `flt` on finite operands is `<` of their values (R82). -/
theorem flt_iff {a b : F64} (ha : isFinite a = true) (hb : isFinite b = true) :
    flt a b = true ↔ floatValue a < floatValue b := by
  have hca := classify_of_isFinite ha
  have hcb := classify_of_isFinite hb
  have hD : (0 : ℚ) < 2 ^ 1074 := pow_pos two_pos _
  rw [floatValue_finite hca, floatValue_finite hcb, div_lt_div_iff_of_pos_right hD, Int.cast_lt]
  simp [flt, hca, hcb]

/-- `feq` on finite operands is `=` of their values (R82). -/
theorem feq_iff {a b : F64} (ha : isFinite a = true) (hb : isFinite b = true) :
    feq a b = true ↔ floatValue a = floatValue b := by
  have hca := classify_of_isFinite ha
  have hcb := classify_of_isFinite hb
  have hD : (2 : ℚ) ^ 1074 ≠ 0 := pow_ne_zero _ two_ne_zero
  rw [floatValue_finite hca, floatValue_finite hcb, div_left_inj' hD, Int.cast_inj]
  simp [feq, hca, hcb]

/-- `flt` is false exactly when the values stand the other way round. -/
theorem flt_eq_false_iff {a b : F64} (ha : isFinite a = true) (hb : isFinite b = true) :
    flt a b = false ↔ floatValue b ≤ floatValue a := by
  rw [← Bool.not_eq_true, flt_iff ha hb, not_lt]

/-- An infinity equals no finite value. -/
theorem feq_of_infinite {x b : F64} {s : Bool} (hx : classify x = .infinite s) (hb : isFinite b = true) :
    feq x b = false ∧ feq b x = false := by
  simp [feq, hx, classify_of_isFinite hb]

/-- Every comparison with a NaN is false (R82). -/
theorem comparisons_of_nan {a b : F64} (h : classify a = .nan ∨ classify b = .nan) :
    flt a b = false ∧ fgt a b = false ∧ feq a b = false := by
  rcases h with h | h <;> simp only [fgt, flt, feq, h]
  · cases classify b <;> simp
  · cases classify a <;> simp

/-- A pattern that equals another finite one is finite. -/
theorem isFinite_of_feq {x b : F64} (hb : isFinite b = true) (h : feq x b = true) : isFinite x = true := by
  cases hc : classify x with
  | finite s m => exact isFinite_of_classify hc
  | infinite s => simp [(feq_of_infinite hc hb).1] at h
  | nan => simp [(comparisons_of_nan (.inl hc)).2.2] at h

/-- A magnitude is zero only for zero fields: a significand with its leading one is positive. -/
theorem bitsMag_eq_zero_iff (b : Nat) : bitsMag b = 0 ↔ b = 0 := by
  unfold bitsMag floatMag
  rw [pow2_eq]
  split
  next => omega
  next h => exact iff_of_false (by positivity) fun hb => h (by rw [hb, Nat.zero_div])

/-- A finite value is zero exactly for +0 and -0. -/
theorem floatValue_eq_zero_iff_zeros {x : F64} (hx : isFinite x = true) :
    floatValue x = 0 ↔ x = 0x0000000000000000#64 ∨ x = 0x8000000000000000#64 := by
  rw [floatValue_eq_zero_iff (classify_of_isFinite hx), bitsMag_eq_zero_iff, fieldsNat]
  have := x.isLt
  simp only [← BitVec.toNat_inj, BitVec.toNat_ofNat]
  omega

theorem isFinite_positiveZero : isFinite positiveZero = true := by decide

/-- `feq` with +0 is the test for a zero value. -/
theorem feq_positiveZero_iff {x : F64} (hx : isFinite x = true) : feq x positiveZero = true ↔ floatValue x = 0 := by
  have h0 : floatValue positiveZero = 0 := (floatValue_eq_zero_iff_zeros isFinite_positiveZero).mpr (.inl rfl)
  rw [feq_iff hx isFinite_positiveZero, h0]

/-- Settles O23: finite operands by their values, an infinity and a NaN by the cases of the comparisons, and the zero test
by the patterns whose value is zero. -/
theorem comparisonsAreOfRealValues : Obligations.ComparisonsAreOfRealValues := by
  refine ⟨fun a b ha hb => ⟨flt_iff ha hb, flt_iff hb ha, feq_iff ha hb⟩, fun a b neg ha hb => ?_,
    fun a b h => comparisons_of_nan h, fun x => ⟨fun h => ?_, fun h => ?_⟩⟩
  · obtain ⟨hbelow, habove⟩ := flt_of_infinite ha hb
    exact ⟨hbelow, habove, habove, hbelow, feq_of_infinite ha hb⟩
  · have hx := isFinite_of_feq isFinite_positiveZero h
    exact (floatValue_eq_zero_iff_zeros hx).mp ((feq_positiveZero_iff hx).mp h)
  · rcases h with rfl | rfl <;> decide

/-- Settles O24: the first operand's case of each primitive; a subtrahend's flipped sign does not matter. -/
theorem infinitiesPropagate : Obligations.InfinitiesPropagate := by
  intro a b neg ha hb
  have hadd : ∀ {c : F64}, isFinite c = true → classify (fadd a c) = .infinite neg := fun hc => by
    simp [fadd, ha, classify_of_isFinite hc, classify_packFloat_infinity]
  refine ⟨hadd hb, hadd (isFinite_fneg hb), ?_⟩
  simp [fdiv, ha, classify_of_isFinite hb, classify_packFloat_infinity]

/-! ### Integers -/

/-- An integer is its magnitude in units of one, rounded once (R83). -/
theorem roundsTo_intToF64 (k : Int) : RoundsTo k (intToF64 k) := by
  refine roundsTo_packFloat _ _ 1 one_pos _ ?_
  have hD : (2 : ℚ) ^ 1074 ≠ 0 := pow_ne_zero _ two_ne_zero
  rw [Nat.cast_mul, oneMag_cast, Nat.cast_one, one_mul, mul_div_cancel_right₀ _ hD]
  simpa using (signedQ_natAbs k 1).symm

/-- A significand of at most 53 bits has a pattern in every place: a small one is doubled until it fills the 53 bits, and
from then on the exponent grows. -/
theorem exists_bitsMag_eq (m e : Nat) (hm : m ≤ 2 ^ 53) : ∃ b, bitsMag b = m * 2 ^ e := by
  suffices h : ∃ k n, n ≤ 2 ^ 53 ∧ (k = 0 ∨ 2 ^ 52 ≤ n) ∧ n * 2 ^ k = m * 2 ^ e by
    obtain ⟨k, n, hn, hk, heq⟩ := h
    exact ⟨_, (bitsMag_add k n hn hk).trans heq⟩
  induction e with
  | zero => exact ⟨0, m, hm, .inl rfl, rfl⟩
  | succ e ih =>
    obtain ⟨k, n, hn, hk, heq⟩ := ih
    rcases Nat.lt_or_ge n (2 ^ 52) with hlt | hge
    · obtain rfl : k = 0 := by omega
      exact ⟨0, n * 2, by omega, .inl rfl, by rw [pow_succ, ← mul_assoc, ← heq]; ring⟩
    · exact ⟨k + 1, n, hn, .inr hge, by rw [pow_succ, pow_succ, ← mul_assoc, ← mul_assoc, heq]⟩

/-- Rounding changes no magnitude that a pattern has. -/
theorem bitsMag_roundMag {b : Nat} (h : roundMag (bitsMag b) 1 < infinityBits) :
    bitsMag (roundMag (bitsMag b) 1) = bitsMag b := by
  have hnear := (roundMag_near (bitsMag b) 1 one_pos b h).1
  simp only [Nat.cast_one, mul_one, sub_self, abs_zero, abs_nonpos_iff] at hnear
  omega

/-- The magnitude of an integer that fits its conversion rounds below the infinity. -/
theorem roundMag_natAbs_lt {k : Int} (hk : k.natAbs ≤ 2 ^ 64) : roundMag (k.natAbs * oneMag) 1 < infinityBits := by
  by_contra h
  have hc := classify_roundMag (decide (k < 0)) (k.natAbs * oneMag) 1
  rw [if_neg h] at hc
  exact absurd (isFinite_intToF64 hk) (by rw [intToF64, not_isFinite_of_infinite hc]; decide)

/-- An integer of at most 53 significant bits converts exactly (R83). -/
theorem floatValue_intToF64 {k : Int} {m e : Nat} (hk : k.natAbs ≤ 2 ^ 64) (hm : m ≤ 2 ^ 53) (h : k.natAbs = m * 2 ^ e) :
    floatValue (intToF64 k) = k := by
  have hlt := roundMag_natAbs_lt hk
  obtain ⟨b, hb⟩ := exists_bitsMag_eq m (e + 1074) hm
  have hmag : k.natAbs * oneMag = bitsMag b := by rw [h, hb, oneMag, pow2_eq, mul_assoc, ← pow_add]
  have hc : classify (intToF64 k) = .finite (decide (k < 0)) (k.natAbs * oneMag) := by
    rw [hmag] at hlt
    rw [intToF64, hmag, classify_packFloat_finite _ _ hlt, bitsMag_roundMag hlt]
  have hD : (2 : ℚ) ^ 1074 ≠ 0 := pow_ne_zero _ two_ne_zero
  rw [floatValue_signedQ hc, Nat.cast_mul, oneMag_cast, mul_div_cancel_right₀ _ hD]
  simpa using signedQ_natAbs k 1

/-- Settles O25: one rounding, and no rounding of a magnitude of at most 53 significant bits. -/
theorem integersConvertToTheNearestValue : Obligations.IntegersConvertToTheNearestValue := by
  refine ⟨fun k _ _ => roundsTo_intToF64 k, fun k hk => ?_, fun m e hm hlo hhi => ?_⟩
  · exact floatValue_intToF64 (hk.trans (by decide)) hk (e := 0) (by simp)
  · rw [floatValue_intToF64 (m := m.natAbs) (e := e) (by omega) hm.le (by simp [Int.natAbs_mul, Int.natAbs_pow])]
    push_cast
    rfl

theorem cast_signedMag (s : Bool) (m : Nat) : ((signedMag s m : Int) : ℚ) = signedQ s m := by
  cases s <;> simp [signedMag, signedQ]

theorem truncToInt_finite {x : F64} {s : Bool} {m : Nat} (h : classify x = .finite s m) :
    truncToInt x = some (signedMag s (m / oneMag)) := by
  simp [truncToInt, h]

/-- Settles O26: the magnitude of the integer is the floor of the magnitude of `x`, and the signs are the same. -/
theorem truncationDropsTheFraction : Obligations.TruncationDropsTheFraction := by
  refine ⟨fun x hx => ?_, fun x hx => ?_⟩
  · have hc := classify_of_isFinite hx
    generalize floatSign x = s, bitsMag (fieldsNat x) = m at hc
    have hq : (0 : ℚ) ≤ m / oneMag := div_nonneg (Nat.cast_nonneg _) (Nat.cast_nonneg _)
    refine ⟨_, truncToInt_finite hc, ?_⟩
    rw [cast_signedMag, floatValue_signedQ hc, ← oneMag_cast, ← Nat.floor_div_eq_div (K := ℚ), signedQ_mul, Bool.xor_self,
      signedQ_abs, signedQ_abs, Nat.abs_cast, abs_of_nonneg hq]
    exact ⟨Nat.floor_le hq, Nat.lt_floor_add_one _, mul_nonneg (Nat.cast_nonneg _) hq⟩
  · cases hc : classify x with
    | finite s m => simp [isFinite_of_classify hc] at hx
    | infinite s => simp [truncToInt, hc]
    | nan => simp [truncToInt, hc]

/-! ### The numeric value of a raw value -/

/-- Signed, a raw value is the two's-complement value of its low bits (R84). -/
theorem numeric_signed (r : Word64) (n : Nat) : numeric r n true = (r.setWidth n).toInt := by
  have hsign : (r.setWidth n).msb = (lowBits r n).testBit (n - 1) := by
    rw [BitVec.msb_eq_getLsbD_last, ← BitVec.testBit_toNat, BitVec.toNat_setWidth, lowBits]
  rw [BitVec.toInt_eq_msb_cond, hsign, BitVec.toNat_setWidth, numeric, lowBits, Bool.true_and]
  norm_cast

/-- Unsigned, it is the value of its low bits. -/
theorem numeric_unsigned (r : Word64) (n : Nat) : numeric r n false = ((r.setWidth n).toNat : Int) := by
  simp [numeric, lowBits]

/-- The numeric value lies in the field's range (R84, R89). -/
theorem numeric_mem_field (r : Word64) (n : Nat) (g : Bool) :
    fieldLow n g ≤ numeric r n g ∧ numeric r n g ≤ fieldHigh n g := by
  cases g with
  | true =>
    rw [numeric_signed]
    exact ⟨BitVec.le_toInt _, Int.le_sub_one_of_lt BitVec.toInt_lt⟩
  | false =>
    rw [numeric_unsigned]
    refine ⟨Int.natCast_nonneg _, Int.le_sub_one_of_lt ?_⟩
    exact_mod_cast (r.setWidth n).isLt

/-- Settles O27: the two readings, and that both lie in the field's range. -/
theorem numericValueOfRaw : Obligations.NumericValueOfRaw := by
  intro r n _ _
  exact ⟨numeric_signed r n, numeric_unsigned r n, numeric_mem_field r n true, numeric_mem_field r n false⟩

theorem toNat_encodeField (k : Int) {n : Nat} (hn : n ≤ 64) : (encodeField k n).toNat = (k % 2 ^ n).toNat := by
  have hpos : (0 : Int) < 2 ^ n := by positivity
  have hlt := Int.emod_lt_of_pos k hpos
  have hpow : (2 : Int) ^ n ≤ 2 ^ 64 := pow_le_pow_right₀ one_le_two hn
  rw [encodeField, BitVec.toNat_ofNat, Nat.mod_eq_of_lt (by omega)]

theorem toNat_encodeField_lt (k : Int) {n : Nat} (hn : n ≤ 64) : (encodeField k n).toNat < 2 ^ n := by
  have hpos : (0 : Int) < 2 ^ n := by positivity
  rw [toNat_encodeField k hn, Int.toNat_lt (Int.emod_nonneg _ hpos.ne')]
  exact_mod_cast Int.emod_lt_of_pos k hpos

/-- The low bits of the encoding are the `n`-bit two's-complement encoding. -/
theorem setWidth_encodeField (k : Int) {n : Nat} (hn : n ≤ 64) : (encodeField k n).setWidth n = BitVec.ofInt n k := by
  apply BitVec.eq_of_toNat_eq
  rw [BitVec.toNat_setWidth, Nat.mod_eq_of_lt (toNat_encodeField_lt k hn), toNat_encodeField k hn, BitVec.toNat_ofInt]
  norm_cast

/-- An integer of the field reads back from its encoding (R90). -/
theorem numeric_encodeField {k : Int} {n : Nat} {g : Bool} (hn : 1 ≤ n) (hn' : n ≤ 64) (hlo : fieldLow n g ≤ k)
    (hhi : k ≤ fieldHigh n g) : numeric (encodeField k n) n g = k := by
  cases g with
  | true =>
    rw [numeric_signed, setWidth_encodeField k hn']
    exact BitVec.toInt_ofInt_eq_self hn hlo (Int.lt_of_le_sub_one hhi)
  | false =>
    have hk : 0 ≤ k := hlo
    have hk' : k < 2 ^ n := Int.lt_of_le_sub_one hhi
    rw [numeric_unsigned, BitVec.toNat_setWidth, Nat.mod_eq_of_lt (toNat_encodeField_lt k hn'), toNat_encodeField k hn',
      Int.emod_eq_of_lt hk hk', Int.toNat_of_nonneg hk]

/-- Settles O28: the encoding reads back, and fits the field. -/
theorem fieldEncodingReadsBack : Obligations.FieldEncodingReadsBack :=
  fun k _ _ hn hn' hlo hhi => ⟨numeric_encodeField hn hn' hlo hhi, toNat_encodeField_lt k hn'⟩

/-! ### The clamp -/

theorem clamp_of_below {x mn mx : F64} (h : flt x mn = true) : clamp x mn mx = (mn, true) := by
  simp [clamp, h]

theorem clamp_of_inside {x mn mx : F64} (h : flt x mn = false) (h' : fgt x mx = false) : clamp x mn mx = (x, false) := by
  simp [clamp, h, h']

/-- The clamp as the two clauses of rule R89's stage 1. -/
theorem clamp_eq (x mn mx : F64) :
    clamp x mn mx = (if flt x mn then mn else if fgt x mx then mx else x, flt x mn || fgt x mx) := by
  cases hlow : flt x mn <;> cases hhigh : fgt x mx <;> simp [clamp, hlow, hhigh]

/-- A finite value in [`MIN`, `MAX`] is not clamped. -/
theorem clamp_of_mem {x mn mx : F64} (hmn : isFinite mn = true) (hmx : isFinite mx = true) (hx : isFinite x = true)
    (hlo : floatValue mn ≤ floatValue x) (hhi : floatValue x ≤ floatValue mx) : clamp x mn mx = (x, false) :=
  clamp_of_inside ((flt_eq_false_iff hx hmn).mpr hlo) ((flt_eq_false_iff hmx hx).mpr hhi)

section
variable {x mn mx : F64} (hmn : isFinite mn = true) (hmx : isFinite mx = true) (hle : flt mx mn = false)
include hmn hmx hle

/-- What lies above `MAX` does not lie below `MIN`. -/
theorem flt_min_of_fgt_max (h : fgt x mx = true) : flt x mn = false := by
  cases hc : classify x with
  | finite s m =>
    have hx := isFinite_of_classify hc
    rw [flt_eq_false_iff hmx hmn] at hle
    rw [fgt, flt_iff hmx hx] at h
    exact (flt_eq_false_iff hx hmn).mpr (hle.trans h.le)
  | infinite s =>
    rw [fgt, (flt_of_infinite hc hmx).2] at h
    rw [(flt_of_infinite hc hmn).1]
    simpa using h
  | nan => exact (comparisons_of_nan (.inl hc)).1

theorem clamp_of_above (h : fgt x mx = true) : clamp x mn mx = (mx, true) := by
  simp [clamp, h, flt_min_of_fgt_max hmn hmx hle h]

/-- A value equal to a bound is not clamped (R86). -/
theorem clamp_of_feq_bound (h : feq x mn = true ∨ feq x mx = true) : clamp x mn mx = (x, false) := by
  have hbounds := (flt_eq_false_iff hmx hmn).mp hle
  rcases h with h | h
  · have hx := isFinite_of_feq hmn h
    have heq := (feq_iff hx hmn).mp h
    exact clamp_of_mem hmn hmx hx heq.ge (heq.trans_le hbounds)
  · have hx := isFinite_of_feq hmx h
    have heq := (feq_iff hx hmx).mp h
    exact clamp_of_mem hmn hmx hx (hbounds.trans_eq heq.symm) heq.le

/-- What the clamp makes of anything but a NaN is finite and lies in [`MIN`, `MAX`] (R88). -/
theorem clamp_mem_bounds (hx : classify x ≠ .nan) :
    isFinite (clamp x mn mx).1 = true ∧ floatValue mn ≤ floatValue (clamp x mn mx).1 ∧
      floatValue (clamp x mn mx).1 ≤ floatValue mx := by
  have hbounds := (flt_eq_false_iff hmx hmn).mp hle
  have hfinite := isFinite_clamp hx hmn hmx
  refine ⟨hfinite, ?_⟩
  cases hlow : flt x mn with
  | true =>
    rw [clamp_of_below hlow]
    exact ⟨le_rfl, hbounds⟩
  | false =>
    cases hhigh : fgt x mx with
    | true =>
      rw [clamp_of_above hmn hmx hle hhigh]
      exact ⟨hbounds, le_rfl⟩
    | false =>
      rw [clamp_of_inside hlow hhigh] at hfinite ⊢
      exact ⟨(flt_eq_false_iff hfinite hmn).mp hlow, (flt_eq_false_iff hmx hfinite).mp hhigh⟩

end

/-- Settles O29, one clause of the clamp at a time. -/
theorem clampIsStrict : Obligations.ClampIsStrict :=
  fun _ _ _ hmn hmx hle =>
    ⟨clamp_of_below, clamp_of_above hmn hmx hle, clamp_of_inside, clamp_of_feq_bound hmn hmx hle⟩

/-! ### The documented domain -/

theorem tophysDomain_iff (r : Request) :
    tophysDomain r = true ↔ isFinite r.factor = true ∧ isFinite r.offset = true ∧ isFinite r.minValue = true ∧
      isFinite r.maxValue = true ∧ flt r.maxValue r.minValue = false := by
  simp [tophysDomain, and_assoc]

theorem torawDomain_iff (r : Request) : torawDomain r = true ↔ isFinite r.physIn = true ∧ tophysDomain r = true := by
  simp [torawDomain]

theorem lengthOk_iff (n : Nat) : lengthOk n = true ↔ 1 ≤ n ∧ n ≤ 64 := by
  simp [lengthOk]

/-- Outside the documented domain there is a refusal, for one of rule R108's two reasons. -/
theorem domainRefusal_of_ne_none {xs : List F64} {mn mx : F64} (h : domainRefusal xs mn mx ≠ none) :
    domainRefusal xs mn mx = some .nonFiniteOperand ∨ domainRefusal xs mn mx = some .minAboveMax := by
  rcases domainRefusal_cases xs mn mx with ⟨hd, -⟩ | ⟨hd, -⟩ | ⟨hd, -⟩
  · exact absurd hd h
  · exact .inr hd
  · exact .inl hd

/-! ### TOPHYS -/

section
variable {c : CmdFields} {s : State} {r : Request} (hs : s.transaction = some r)
include hs

theorem execTophys_of_bad_length (hlen : lengthOk c.length = false) :
    exec (.tophys c) s = .next (s.answer r (.fault .geometryOutOfRange)) := by
  simp [execTophys_eq hs, hlen]

theorem execTophys_outside (hlen : lengthOk c.length = true) (hdomain : tophysDomain r = false) :
    exec (.tophys c) s = .refused .nonFiniteOperand ∨ exec (.tophys c) s = .refused .minAboveMax := by
  have hne := mt (domainRefusal_tophys r).mp (by simp [hdomain])
  rw [execTophys_eq hs, if_pos hlen]
  rcases domainRefusal_of_ne_none hne with hd | hd <;> simp [hd]

theorem execTophys_inside (hlen : lengthOk c.length = true) (hdomain : tophysDomain r = true) :
    exec (.tophys c) s = .next (s.answer r
      (.tophysOk (clamp (scaleUp (numeric r.rawIn c.length c.isSigned) r.factor r.offset) r.minValue r.maxValue).1
        (clamp (scaleUp (numeric r.rawIn c.length c.isSigned) r.factor r.offset) r.minValue r.maxValue).2)) := by
  rw [execTophys_eq hs, if_pos hlen, (domainRefusal_tophys r).mpr hdomain]

end

/-- TOPHYS computes no quotient. -/
theorem execTophys_ne_nanQuotient {c : CmdFields} {s : State} {r : Request} (hs : s.transaction = some r) :
    exec (.tophys c) s ≠ .refused .nanQuotient := by
  cases hlen : lengthOk c.length with
  | false => simp [execTophys_of_bad_length hs hlen]
  | true =>
    cases hdomain : tophysDomain r with
    | false => rcases execTophys_outside hs hlen hdomain with h | h <;> simp [h]
    | true => simp [execTophys_inside hs hlen hdomain]

/-- Settles O30: the three outcomes of TOPHYS, and inside the domain the three clauses of the clamp. -/
theorem tophysScalesAndClamps : Obligations.TophysScalesAndClamps := by
  intro c s r hs
  refine ⟨execTophys_of_bad_length hs, execTophys_outside hs, fun hlen hdomain => ?_⟩
  obtain ⟨-, -, hmn, hmx, hle⟩ := (tophysDomain_iff r).mp hdomain
  rw [execTophys_inside hs hlen hdomain, scaleUp]
  refine ⟨fun h => ?_, fun h => ?_, fun h h' => ?_⟩
  · rw [clamp_of_below h]
  · rw [clamp_of_above hmn hmx hle h]
  · rw [clamp_of_inside h h']

/-- Settles O31: the scaled value is no NaN, so the clamp brings it into the bounds. -/
theorem tophysAnswersWithinTheBounds : Obligations.TophysAnswersWithinTheBounds := by
  intro c s r hs hlen hdomain
  obtain ⟨hfactor, hoffset, hmn, hmx, hle⟩ := (tophysDomain_iff r).mp hdomain
  have hnumeric := natAbs_numeric_le r.rawIn ((lengthOk_iff _).mp hlen).2 c.isSigned
  have hscaled := classify_scaleUp_ne_nan hnumeric hfactor hoffset
  exact ⟨_, _, execTophys_inside hs hlen hdomain, clamp_mem_bounds hmn hmx hle hscaled⟩

/-! ### TORAW: the quotient and its saturation -/

/-- Dividing anything but a NaN by a finite value other than zero makes no NaN (R81, assumption 6). -/
theorem classify_fdiv_ne_nan {a b : F64} (ha : classify a ≠ .nan) (hb : isFinite b = true) (hb0 : floatValue b ≠ 0) :
    classify (fdiv a b) ≠ .nan := by
  have hcb := classify_of_isFinite hb
  cases hca : classify a with
  | nan => exact absurd hca ha
  | infinite s => simp [fdiv, hca, hcb, classify_packFloat_infinity]
  | finite s m =>
    rw [fdiv_finite hca hcb fun h => hb0 ((floatValue_eq_zero_iff hcb).mpr h)]
    exact classify_roundMag_ne_nan _ _ _

/-- The quotient of TORAW is no NaN: `x - OFFSET` may overflow, and `FACTOR` is not zero (R89). -/
theorem classify_scaleDown_ne_nan {x factor offset : F64} (hx : isFinite x = true) (hfactor : isFinite factor = true)
    (hoffset : isFinite offset = true) (hnonzero : feq factor positiveZero = false) :
    classify (scaleDown x factor offset) ≠ .nan := by
  have hx' : classify x ≠ .nan := by simp [classify_of_isFinite hx]
  have hfactor0 : floatValue factor ≠ 0 := by simp [← feq_positiveZero_iff hfactor, hnonzero]
  exact classify_fdiv_ne_nan (classify_fadd_ne_nan hx' (isFinite_fneg hoffset)) hfactor hfactor0

/-- Saturation has three cases: below the field, above it, in it (R89). -/
theorem saturate_cases (t lo hi : Int) :
    (t < lo ∧ saturate t lo hi = (lo, true)) ∨ (hi < t ∧ saturate t lo hi = (hi, true)) ∨
      (lo ≤ t ∧ t ≤ hi ∧ saturate t lo hi = (t, false)) := by
  unfold saturate
  split
  next h => exact .inl ⟨h, rfl⟩
  next h =>
    split
    next h' => exact .inr (.inl ⟨h', rfl⟩)
    next h' => exact .inr (.inr ⟨not_lt.mp h, not_lt.mp h', rfl⟩)

/-- The integer `k` and the flag `c2` that stage 2 makes of the quotient `q` for the field `lo .. hi` (R89). -/
def QuotientFits (q : F64) (lo hi k : Int) (c2 : Bool) : Prop :=
  (classify q = .infinite false ∧ k = hi ∧ c2 = true) ∨
  (classify q = .infinite true ∧ k = lo ∧ c2 = true) ∨
  ∃ t : Int, truncToInt q = some t ∧
    ((t < lo ∧ k = lo ∧ c2 = true) ∨ (hi < t ∧ k = hi ∧ c2 = true) ∨ (lo ≤ t ∧ t ≤ hi ∧ k = t ∧ c2 = false))

/-- Stage 2 answers for every quotient but a NaN. -/
theorem quotientToField_fits {q : F64} (hq : classify q ≠ .nan) (lo hi : Int) :
    ∃ k, quotientToField q lo hi = some k ∧ QuotientFits q lo hi k.1 k.2 := by
  cases hc : classify q with
  | nan => exact absurd hc hq
  | infinite s =>
    cases s with
    | false => exact ⟨(hi, true), by simp [quotientToField, hc], .inl ⟨hc, rfl, rfl⟩⟩
    | true => exact ⟨(lo, true), by simp [quotientToField, hc], .inr (.inl ⟨hc, rfl, rfl⟩)⟩
  | finite s m =>
    have ht := truncToInt_finite hc
    refine ⟨saturate (signedMag s (m / oneMag)) lo hi, by simp only [quotientToField, hc, ht, Option.map_some],
      .inr (.inr ⟨_, ht, ?_⟩)⟩
    rcases saturate_cases (signedMag s (m / oneMag)) lo hi with ⟨h, hk⟩ | ⟨h, hk⟩ | ⟨h, h', hk⟩
    · exact .inl ⟨h, by simp [hk]⟩
    · exact .inr (.inl ⟨h, by simp [hk]⟩)
    · exact .inr (.inr ⟨h, h', by simp [hk]⟩)

/-- What stage 2 gives is an integer of the field; unflagged, it is the truncated quotient. -/
theorem QuotientFits.mem_field {q : F64} {lo hi k : Int} {c2 : Bool} (h : QuotientFits q lo hi k c2) (hle : lo ≤ hi) :
    lo ≤ k ∧ k ≤ hi ∧ (c2 = false → truncToInt q = some k) := by
  rcases h with ⟨-, rfl, rfl⟩ | ⟨-, rfl, rfl⟩ | ⟨t, ht, ⟨-, rfl, rfl⟩ | ⟨-, rfl, rfl⟩ | ⟨hlo, hhi, rfl, rfl⟩⟩
  · exact ⟨hle, le_rfl, nofun⟩
  · exact ⟨le_rfl, hle, nofun⟩
  · exact ⟨le_rfl, hle, nofun⟩
  · exact ⟨hle, le_rfl, nofun⟩
  · exact ⟨hlo, hhi, fun _ => ht⟩

/-- A field has a least and a greatest integer. -/
theorem fieldLow_le_fieldHigh (n : Nat) (g : Bool) : fieldLow n g ≤ fieldHigh n g :=
  have h := numeric_mem_field 0 n g
  h.1.trans h.2

/-! ### TORAW -/

section
variable {c : CmdFields} {s : State} {r : Request} (hs : s.transaction = some r)
include hs

theorem execToraw_of_bad_length (hlen : lengthOk c.length = false) :
    exec (.toraw c) s = .next (s.answer r (.fault .geometryOutOfRange)) := by
  simp [execToraw_eq hs, hlen]

theorem execToraw_outside (hlen : lengthOk c.length = true) (hdomain : torawDomain r = false) :
    exec (.toraw c) s = .refused .nonFiniteOperand ∨ exec (.toraw c) s = .refused .minAboveMax := by
  have hne := mt (domainRefusal_toraw r).mp (by simp [hdomain])
  rw [execToraw_eq hs, if_pos hlen]
  rcases domainRefusal_of_ne_none hne with hd | hd <;> simp [hd]

theorem execToraw_of_zero_factor (hlen : lengthOk c.length = true) (hdomain : torawDomain r = true)
    (hzero : feq r.factor positiveZero = true) : exec (.toraw c) s = .next (s.answer r (.fault .scaleDegenerate)) := by
  simp [execToraw_eq hs, hlen, (domainRefusal_toraw r).mpr hdomain, hzero]

/-- Inside the domain and with a factor other than zero TORAW completes, when `x` and `c1` are what stage 1 gives, with
what stage 2 makes of `x`'s quotient. -/
theorem execToraw_inside {x : F64} {c1 : Bool} (hlen : lengthOk c.length = true) (hdomain : torawDomain r = true)
    (hnonzero : feq r.factor positiveZero = false) (hclamp : clamp r.physIn r.minValue r.maxValue = (x, c1)) :
    ∃ k c2, exec (.toraw c) s = .next (s.answer r (.torawOk (encodeField k c.length) (c1 || c2))) ∧
      quotientToField (scaleDown x r.factor r.offset) (fieldLow c.length c.isSigned) (fieldHigh c.length c.isSigned) =
        some (k, c2) ∧
      QuotientFits (scaleDown x r.factor r.offset) (fieldLow c.length c.isSigned) (fieldHigh c.length c.isSigned) k c2 := by
  obtain ⟨hphys, htophys⟩ := (torawDomain_iff r).mp hdomain
  obtain ⟨hfactor, hoffset, hmn, hmx, -⟩ := (tophysDomain_iff r).mp htophys
  have hx : isFinite x = true := by
    have h := isFinite_clamp (x := r.physIn) (by simp [classify_of_isFinite hphys]) hmn hmx
    rwa [hclamp] at h
  obtain ⟨⟨k, c2⟩, hk, hfits⟩ := quotientToField_fits (classify_scaleDown_ne_nan hx hfactor hoffset hnonzero)
    (fieldLow c.length c.isSigned) (fieldHigh c.length c.isSigned)
  refine ⟨k, c2, ?_, hk, hfits⟩
  simp [execToraw_eq hs, hlen, (domainRefusal_toraw r).mpr hdomain, hnonzero, hclamp, hk]

end

/-- Settles O32: the four outcomes of TORAW; stage 2's cases are those of `QuotientFits`. -/
theorem torawConverts : Obligations.TorawConverts := by
  intro c s r hs
  refine ⟨execToraw_of_bad_length hs, execToraw_outside hs, execToraw_of_zero_factor hs, fun hlen hdomain hnonzero => ?_⟩
  obtain ⟨k, c2, hexec, -, hfits⟩ := execToraw_inside hs hlen hdomain hnonzero (clamp_eq _ _ _)
  exact ⟨k, c2, hexec, hfits⟩

/-- Inside its domain and with a factor other than zero TORAW completes; elsewhere its outcome is another one. -/
theorem execToraw_ne_nanQuotient {c : CmdFields} {s : State} {r : Request} (hs : s.transaction = some r) :
    exec (.toraw c) s ≠ .refused .nanQuotient := by
  cases hlen : lengthOk c.length with
  | false => simp [execToraw_of_bad_length hs hlen]
  | true =>
    cases hdomain : torawDomain r with
    | false => rcases execToraw_outside hs hlen hdomain with h | h <;> simp [h]
    | true =>
      cases hzero : feq r.factor positiveZero with
      | true => simp [execToraw_of_zero_factor hs hlen hdomain hzero]
      | false =>
        obtain ⟨k, c2, hexec, -⟩ := execToraw_inside hs hlen hdomain hzero (clamp_eq _ _ _)
        simp [hexec]

/-- Settles O33: no other operation has the refusal at all, and TORAW does not reach it. -/
theorem torawQuotientIsNeverNan : Obligations.TorawQuotientIsNeverNan := by
  intro i s
  cases hs : s.transaction with
  | none => simp [exec_idle hs]
  | some r =>
    cases i with
    | extract c =>
      rw [execExtract_eq hs]
      split <;> exact nofun
    | insert c =>
      rw [execInsert_eq hs]
      split <;> exact nofun
    | tophys c => exact execTophys_ne_nanQuotient hs
    | toraw c => exact execToraw_ne_nanQuotient hs

/-- Settles O34: stage 2 gives an integer of the field, which reads back; unflagged, stage 1 left `PHYS_IN` alone too. -/
theorem torawAnswersWithinTheField : Obligations.TorawAnswersWithinTheField := by
  intro c s r hs hlen hdomain hnonzero
  obtain ⟨hn, hn'⟩ := (lengthOk_iff _).mp hlen
  obtain ⟨k, c2, hexec, -, hfits⟩ := execToraw_inside hs hlen hdomain hnonzero (clamp_eq _ _ _)
  obtain ⟨hlo, hhi, htrunc⟩ := hfits.mem_field (fieldLow_le_fieldHigh _ _)
  refine ⟨_, _, hexec, toNat_encodeField_lt k hn', ?_⟩
  rw [numeric_encodeField hn hn' hlo hhi]
  refine ⟨hlo, hhi, fun hclamped => ?_⟩
  simp only [Bool.or_eq_false_iff] at hclamped
  obtain ⟨⟨hlow, hhigh⟩, hc2⟩ := hclamped
  simpa [scaleDown, hlow, hhigh] using htrunc hc2

/-- Settles O35: stage 1 gives the bound for both requests, flagged for the one beyond it. -/
theorem torawBeyondABoundConvertsTheBound : Obligations.TorawBeyondABoundConvertsTheBound := by
  intro c s r bound hs hlen hdomain hnonzero hbeyond
  obtain ⟨hphys, htophys⟩ := (torawDomain_iff r).mp hdomain
  obtain ⟨hfactor, hoffset, hmn, hmx, hle⟩ := (tophysDomain_iff r).mp htophys
  have hbounds := (flt_eq_false_iff hmx hmn).mp hle
  obtain ⟨hclamp, hbound, hclamp'⟩ : clamp r.physIn r.minValue r.maxValue = (bound, true) ∧ isFinite bound = true ∧
      clamp bound r.minValue r.maxValue = (bound, false) := by
    rcases hbeyond with ⟨h, rfl⟩ | ⟨h, rfl⟩
    · exact ⟨clamp_of_above hmn hmx hle h, hmx, clamp_of_mem hmn hmx hmx hbounds le_rfl⟩
    · exact ⟨clamp_of_below h, hmn, clamp_of_mem hmn hmx hmn le_rfl hbounds⟩
  obtain ⟨k, c2, hexec, hk, -⟩ := execToraw_inside hs hlen hdomain hnonzero hclamp
  have hdomain' : torawDomain { r with physIn := bound } = true := (torawDomain_iff _).mpr ⟨hbound, htophys⟩
  obtain ⟨k', c2', hexec', hk', -⟩ := execToraw_inside (s := { s with transaction := some { r with physIn := bound } }) rfl
    hlen hdomain' hnonzero hclamp'
  obtain ⟨rfl, rfl⟩ := Prod.mk.inj (Option.some.inj (hk.symm.trans hk'))
  exact ⟨_, _, hexec, hexec'⟩

end Sys2Proof.Machine

/-! PROOFS. The statements of `60_exceptions.md`: the one outcome of an operation in rule R106's order, and from it when
each fault is raised, when a request is refused, and that a fault is a response and nothing else. -/

namespace Sys2Proof.Machine

/-! ### The outcomes of an operation, in rule R106's order -/

section
variable {i : Instr} {s : State} {r : Request} (hs : s.transaction = some r)
include hs

theorem exec_of_illegal_geometry (hg : geometryLegal i = false) :
    exec i s = .next (s.answer r (.fault .geometryOutOfRange)) := by
  cases i with
  | extract c =>
    rw [execExtract_eq hs]
    exact if_neg (ne_true_of_eq_false hg)
  | insert c =>
    rw [execInsert_eq hs]
    exact if_neg (ne_true_of_eq_false hg)
  | tophys c => exact execTophys_of_bad_length hs hg
  | toraw c => exact execToraw_of_bad_length hs hg

theorem exec_outside_domain (hg : geometryLegal i = true) (hd : inDomain i r = false) :
    exec i s = .refused .nonFiniteOperand ∨ exec i s = .refused .minAboveMax := by
  cases i with
  | extract c => cases hd
  | insert c => cases hd
  | tophys c => exact execTophys_outside hs hg hd
  | toraw c => exact execToraw_outside hs hg hd

theorem exec_of_zero_factor (hg : geometryLegal i = true) (hd : inDomain i r = true) (hop : i.op = 3)
    (hzero : feq r.factor positiveZero = true) : exec i s = .next (s.answer r (.fault .scaleDegenerate)) := by
  cases i with
  | toraw c => exact execToraw_of_zero_factor hs hg hd hzero
  | _ => cases hop

theorem exec_completes (hg : geometryLegal i = true) (hd : inDomain i r = true)
    (hnonzero : i.op = 3 → feq r.factor positiveZero = false) :
    ∃ p : Response, exec i s = .next (s.complete p) ∧ resultStatus p.result = 0 := by
  cases i with
  | extract c =>
    rw [execExtract_eq hs]
    exact ⟨passThrough r _, if_pos hg, rfl⟩
  | insert c =>
    rw [execInsert_eq hs]
    exact ⟨⟨_, .insertOk⟩, if_pos hg, rfl⟩
  | tophys c => exact ⟨passThrough r _, execTophys_inside hs hg hd, rfl⟩
  | toraw c =>
    obtain ⟨k, c2, hexec, -⟩ := execToraw_inside hs hg hd (hnonzero rfl) (clamp_eq _ _ _)
    exact ⟨passThrough r _, hexec, rfl⟩

/-- The four outcomes of an operation, each with its condition (R106). -/
theorem exec_outcomes :
    (geometryLegal i = false ∧ exec i s = .next (s.answer r (.fault .geometryOutOfRange))) ∨
    (geometryLegal i = true ∧ inDomain i r = false ∧
      (exec i s = .refused .nonFiniteOperand ∨ exec i s = .refused .minAboveMax)) ∨
    (geometryLegal i = true ∧ inDomain i r = true ∧ i.op = 3 ∧ feq r.factor positiveZero = true ∧
      exec i s = .next (s.answer r (.fault .scaleDegenerate))) ∨
    (geometryLegal i = true ∧ inDomain i r = true ∧ (i.op = 3 → feq r.factor positiveZero = false) ∧
      ∃ p : Response, exec i s = .next (s.complete p) ∧ resultStatus p.result = 0) := by
  cases hg : geometryLegal i with
  | false => exact .inl ⟨rfl, exec_of_illegal_geometry hs hg⟩
  | true =>
    cases hd : inDomain i r with
    | false => exact .inr (.inl ⟨rfl, rfl, exec_outside_domain hs hg hd⟩)
    | true =>
      by_cases hz : i.op = 3 ∧ feq r.factor positiveZero = true
      · obtain ⟨hop, hzero⟩ := hz
        exact .inr (.inr (.inl ⟨rfl, rfl, hop, hzero, exec_of_zero_factor hs hg hd hop hzero⟩))
      · have hnonzero : i.op = 3 → feq r.factor positiveZero = false := by simpa using hz
        exact .inr (.inr (.inr ⟨rfl, rfl, hnonzero, exec_completes hs hg hd hnonzero⟩))

end

/-- Settles O40: the step runs the decoded command, and each clause is one outcome of the operation. -/
theorem outcomesInPriorityOrder : Obligations.OutcomesInPriorityOrder := by
  intro s r hs hn
  refine ⟨fun e hdec => by rw [step_busy hs hn, hdec], fun i hdec => ?_⟩
  have hstep : step s = exec i s := by rw [step_busy hs hn, hdec]
  rw [hstep]
  exact ⟨exec_of_illegal_geometry hs, exec_outside_domain hs, exec_of_zero_factor hs, exec_completes hs⟩

/-! ### When each fault is raised -/

/-- A response with `STATUS` 0 is no fault's. -/
theorem complete_ne_answer_fault {s : State} {r : Request} {p : Response} {f : Fault} (hp : resultStatus p.result = 0) :
    s.complete p ≠ s.answer r (.fault f) := by
  intro h
  have hresponses := congrArg State.responses h
  obtain rfl : p = ⟨r.payloadIn, .fault f⟩ := by simpa using hresponses
  cases f <;> cases hp

section
variable {i : Instr} {s : State} {r : Request} (hs : s.transaction = some r)
include hs

/-- GeometryOutOfRange is raised exactly by an illegal geometry (R101). -/
theorem exec_eq_geometryOutOfRange_iff :
    exec i s = .next (s.answer r (.fault .geometryOutOfRange)) ↔ geometryLegal i = false := by
  refine ⟨fun h => ?_, exec_of_illegal_geometry hs⟩
  rcases exec_outcomes (i := i) hs with ⟨hg, -⟩ | ⟨-, -, he | he⟩ | ⟨-, -, -, -, he⟩ | ⟨-, -, -, p, he, hp⟩
  · exact hg
  · cases he.symm.trans h
  · cases he.symm.trans h
  · simpa using he.symm.trans h
  · exact absurd (Host.Outcome.next.inj (he.symm.trans h)) (complete_ne_answer_fault hp)

/-- ScaleDegenerate is raised exactly by a TORAW with a legal length, inside the domain, with a zero factor (R102). -/
theorem exec_eq_scaleDegenerate_iff :
    exec i s = .next (s.answer r (.fault .scaleDegenerate)) ↔
      geometryLegal i = true ∧ inDomain i r = true ∧ i.op = 3 ∧ feq r.factor positiveZero = true := by
  refine ⟨fun h => ?_, fun ⟨hg, hd, hop, hzero⟩ => exec_of_zero_factor hs hg hd hop hzero⟩
  rcases exec_outcomes (i := i) hs with ⟨-, he⟩ | ⟨-, -, he | he⟩ | ⟨hg, hd, hop, hzero, -⟩ | ⟨-, -, -, p, he, hp⟩
  · simpa using he.symm.trans h
  · cases he.symm.trans h
  · cases he.symm.trans h
  · exact ⟨hg, hd, hop, hzero⟩
  · exact absurd (Host.Outcome.next.inj (he.symm.trans h)) (complete_ne_answer_fault hp)

end

theorem lengthOk_eq_false_iff (n : Nat) : lengthOk n = false ↔ n = 0 ∨ 64 < n := by
  rw [← Bool.not_eq_true, lengthOk_iff]
  omega

/-- A geometry is illegal for its length or for one touched index outside the payload (R35). -/
theorem geometryOk_eq_false_iff {cap s n : Nat} {o : ByteOrder} :
    geometryOk cap o s n = false ↔
      n = 0 ∨ 64 < n ∨ ∃ i < n, srcIndex o s i < 0 ∨ (cap * 8 : Int) ≤ srcIndex o s i := by
  have hindices : (∀ i < n, 0 ≤ srcIndex o s i ∧ srcIndex o s i < (cap * 8 : Nat)) ↔
      ¬ ∃ i < n, srcIndex o s i < 0 ∨ (cap * 8 : Int) ≤ srcIndex o s i := by
    simp
  rw [← Bool.not_eq_true, geometryOk_iff, hindices, not_and_or, not_and_or, not_not, Nat.not_le, Nat.not_le,
    Nat.lt_one_iff]

/-- Settles O36: the fault is the illegal geometry's, and the illegal geometries are those of rules R35 and R87. -/
theorem geometryFaultExactlyWhen : Obligations.GeometryFaultExactlyWhen := by
  intro c s r hs
  simp only [exec_eq_geometryOutOfRange_iff hs, geometryLegal]
  exact ⟨geometryOk_eq_false_iff, geometryOk_eq_false_iff, lengthOk_eq_false_iff _, lengthOk_eq_false_iff _⟩

/-- Settles O37: the fault is TORAW's with a zero factor, and the zero factors are +0 and -0. -/
theorem scaleFaultExactlyWhen : Obligations.ScaleFaultExactlyWhen := by
  intro i s r hs
  obtain ⟨-, -, -, hzero⟩ := comparisonsAreOfRealValues
  rw [exec_eq_scaleDegenerate_iff hs, hzero]
  cases i with
  | toraw c => simp [geometryLegal, inDomain, Instr.op, lengthOk_iff, and_assoc]
  | _ => simp [Instr.op]

/-! ### What a fault leaves unchanged -/

/-- Settles O38: the one response of an operation leaves the payload alone unless it is a successful INSERT's. -/
theorem faultsAreReportedInBand : Obligations.FaultsAreReportedInBand := by
  refine ⟨fun i s t r p f hs h hresponses hp => ?_, fun i s f h => ?_⟩
  · rcases exec_cases i r with ⟨q, hpayload, hexec⟩ | ⟨e, -, hexec⟩
    · cases (hexec s hs).symm.trans h
      obtain rfl : q = p := by simpa using hresponses
      have hq : q = ⟨r.payloadIn, .fault f⟩ := by rw [← hp, ← hpayload (by simp [hp])]
      rw [hq]
      rfl
    · cases (hexec s hs).symm.trans h
  · cases hs : s.transaction with
    | none => cases (exec_idle hs i).symm.trans h
    | some r =>
      rcases exec_cases i r with ⟨q, -, hexec⟩ | ⟨e, -, hexec⟩
      · cases (hexec s hs).symm.trans h
      · cases (hexec s hs).symm.trans h

/-! ### When a request is refused, and why -/

theorem domainRefusal_eq_nonFiniteOperand_iff (xs : List F64) (mn mx : F64) :
    domainRefusal xs mn mx = some .nonFiniteOperand ↔ ¬ xs.all isFinite = true := by
  rcases domainRefusal_cases xs mn mx with ⟨hd, hall, -⟩ | ⟨hd, hall, -⟩ | ⟨hd, hall⟩ <;> simp [hd, hall]

theorem domainRefusal_eq_minAboveMax_iff (xs : List F64) (mn mx : F64) :
    domainRefusal xs mn mx = some .minAboveMax ↔ xs.all isFinite = true ∧ flt mx mn = true := by
  rcases domainRefusal_cases xs mn mx with ⟨hd, hall, hle⟩ | ⟨hd, hall, hlt⟩ | ⟨hd, hall⟩
  · simp [hd, hle]
  · simp [hd, hall, hlt]
  · simp [hd, hall]

section
variable {s : State} {r : Request} (hs : s.transaction = some r)
include hs

/-- Inside the documented domain nothing is refused (R123). -/
theorem exec_ne_refused_of_inDomain {i : Instr} (hd : inDomain i r = true) (e : Refusal) : exec i s ≠ .refused e := by
  rcases exec_outcomes (i := i) hs with ⟨-, he⟩ | ⟨-, hd', -⟩ | ⟨-, -, -, -, he⟩ | ⟨-, -, -, p, he, -⟩
  · simp [he]
  · simp [hd] at hd'
  · simp [he]
  · simp [he]

/-- TOPHYS is refused for exactly the reason that the domain check gives. -/
theorem execTophys_eq_refused_iff (c : CmdFields) (e : Refusal) :
    exec (.tophys c) s = .refused e ↔ lengthOk c.length = true ∧
      domainRefusal [r.factor, r.offset, r.minValue, r.maxValue] r.minValue r.maxValue = some e := by
  cases hlen : lengthOk c.length with
  | false => simp [execTophys_of_bad_length hs hlen]
  | true =>
    cases hd : domainRefusal [r.factor, r.offset, r.minValue, r.maxValue] r.minValue r.maxValue with
    | none => simp [exec_ne_refused_of_inDomain hs (i := .tophys c) ((domainRefusal_tophys r).mp hd) e]
    | some e' => simp [execTophys_eq hs, hlen, hd]

/-- TORAW is refused for exactly the reason that the domain check gives. -/
theorem execToraw_eq_refused_iff (c : CmdFields) (e : Refusal) :
    exec (.toraw c) s = .refused e ↔ lengthOk c.length = true ∧
      domainRefusal [r.physIn, r.factor, r.offset, r.minValue, r.maxValue] r.minValue r.maxValue = some e := by
  cases hlen : lengthOk c.length with
  | false => simp [execToraw_of_bad_length hs hlen]
  | true =>
    cases hd : domainRefusal [r.physIn, r.factor, r.offset, r.minValue, r.maxValue] r.minValue r.maxValue with
    | none => simp [exec_ne_refused_of_inDomain hs (i := .toraw c) ((domainRefusal_toraw r).mp hd) e]
    | some e' => simp [execToraw_eq hs, hlen, hd]

end

/-- Settles O39: the Bit Codec's requests are all inside the domain; the converter's are refused as its domain check says. -/
theorem refusedExactlyOutsideTheDomain : Obligations.RefusedExactlyOutsideTheDomain := by
  intro c s r hs
  refine ⟨exec_ne_refused_of_inDomain hs rfl, exec_ne_refused_of_inDomain hs rfl, ?_, ?_, ?_, ?_⟩
  · rw [execTophys_eq_refused_iff hs, domainRefusal_eq_nonFiniteOperand_iff, lengthOk_iff]
    simp [and_assoc]
  · rw [execTophys_eq_refused_iff hs, domainRefusal_eq_minAboveMax_iff, lengthOk_iff]
    simp [and_assoc]
  · rw [execToraw_eq_refused_iff hs, domainRefusal_eq_nonFiniteOperand_iff, lengthOk_iff]
    simp [and_assoc]
  · rw [execToraw_eq_refused_iff hs, domainRefusal_eq_minAboveMax_iff, lengthOk_iff]
    simp [and_assoc]

end Sys2Proof.Machine

/-! PROOFS. The statements of `70_reset_and_hazards.md`: requests to come, in progress and answered are conserved. -/

namespace Sys2Proof.Machine

/-- With a transaction in progress, its one response counts for the request that leaves (R131). -/
theorem complete_keeps_count {s : State} (hs : s.transaction.isSome = true) (p : Response) :
    requestsToCome (s.complete p) + inProgress (s.complete p) + (s.complete p).responses.length =
      requestsToCome s + inProgress s + s.responses.length := by
  obtain ⟨r, hr⟩ := Option.isSome_iff_exists.mp hs
  have hcome : requestsToCome (s.complete p) = requestsToCome s := rfl
  have hbusy : inProgress s = 1 := by simp [inProgress, hr]
  have hidle : inProgress (s.complete p) = 0 := rfl
  rw [hcome, hbusy, hidle, complete_responses, List.length_append, List.length_singleton]
  omega

/-- An idle CORE only moves a request it takes from the host's inputs to the transaction in progress (R13). -/
theorem takeInput_keeps_count {s : State} (hs : s.transaction = none) :
    requestsToCome (takeInput s) + inProgress (takeInput s) = requestsToCome s + inProgress s := by
  cases hi : s.input with
  | nil => simp [takeInput, hi]
  | cons e rest => cases e <;> simp [takeInput, takeReset, requestsToCome, inProgress, hs, hi]

/-- Settles O50: a busy step goes on only by completing the transaction, an idle one only takes the next input. -/
theorem oneResponsePerRequest : Obligations.OneResponsePerRequest := by
  intro s t hn h
  cases hs : s.transaction with
  | none =>
    cases (step_idle hs hn).symm.trans h
    rw [takeInput_keeps_count hs, takeInput_responses]
  | some r =>
    have hbusy : s.transaction.isSome = true := by rw [hs]; rfl
    obtain ⟨p, rfl⟩ := step_busy_next hbusy hn h
    exact complete_keeps_count hbusy p

end Sys2Proof.Machine

/-! PROOFS. The sample words of `95_test_vectors.md`: when a word is the encoding of a command, and when each condition of
rule R55 rejects it. -/

namespace Sys2Proof

/-- A word that encodes a well-formed command decodes to it. -/
theorem decode_eq_command_of_encode_eq {w : Word32} {i : Instr} (hw : encode i = w) (hwf : i.wf = true) :
    decode w = .command i :=
  hw ▸ decodeOfEncode i hwf

/-- The reserved bits are looked at first: they are named exactly when one of them is set (R55). -/
theorem decode_eq_reservedBits_iff (w : Word32) : decode w = .rejected .reservedBits ↔ reservedClear w = false := by
  rw [decode_eq]
  split
  next hclear => split <;> simp [hclear]
  next hset => simp [hset]

/-- The capacity is named exactly when the reserved bits are clear, `OP` is EXTRACT or INSERT, and `CAP` is above 8
(R52, R55). -/
theorem decode_eq_capAboveEight_iff (w : Word32) :
    decode w = .rejected .capAboveEight ↔ reservedClear w = true ∧ slice w 0 2 ≤ 1 ∧ 8 < slice w 4 4 := by
  have hcap : (ofOp (slice w 0 2) (fieldsOf w)).wf = false ↔ slice w 0 2 ≤ 1 ∧ 8 < slice w 4 4 := by
    rw [← Bool.not_eq_true, Instr.wf_iff, fields_ofOp, op_ofOp (slice_lt w 0 2)]
    simp [fieldsOf_fits, CmdFields.capLegal, show (fieldsOf w).cap = slice w 4 4 from rfl]
  rw [decode_eq, ← hcap]
  split
  next hclear => split <;> simp [*]
  next hset => simp [hset]

/-- Settles O6: four of the words encode well-formed commands; VX3 has bit 23 set, and VX4 is an EXTRACT with `CAP` 9. -/
theorem sampleWordsDecode : Obligations.SampleWordsDecode :=
  ⟨decode_eq_command_of_encode_eq (by decide) (by decide),
    decode_eq_command_of_encode_eq (by decide) (by decide),
    decode_eq_command_of_encode_eq (by decide) (by decide),
    decode_eq_command_of_encode_eq (by decide) (by decide),
    (decode_eq_reservedBits_iff _).mpr (by decide),
    (decode_eq_capAboveEight_iff _).mpr (by decide)⟩

end Sys2Proof
